-- ==== Sys2Proof/Word.lean ====
section
/-! DEFINITION. The machine's word types (00_scope.md R7, R8: every value is an unsigned integer of a stated width). -/

namespace Sys2Proof

/-- A byte: a memory cell, a general register, a timer (R20, R35). -/
abbrev Byte := BitVec 8

/-- A 16-bit value: `PC`, `I`, a call-stack slot, an instruction word (R22, R23, R24, R90). -/
abbrev Word := BitVec 16

/-- A 4-bit field: a register number, a row count, a key number (R91). -/
abbrev Nibble := BitVec 4

/-- The 12-bit immediate `nnn` (R91). -/
abbrev Addr12 := BitVec 12

end Sys2Proof
end

