-- ==== Sys2Proof/Config.lean ====
section
/-! DEFINITION. The implementation parameters of 00_scope.md R6, as plain data, and the free value of the random source.
Their default values stand in Machine/Params.lean. -/

namespace Sys2Proof

/-- `OOB_POLICY` (R6, R67, R76): what an access past address 4095 does. -/
inductive OobPolicy where
  /-- A hard fault, before any effect (R67). -/
  | fault
  /-- Modulo-4096 wraparound at the moment of access (R76). -/
  | wrap
  deriving DecidableEq, Repr

/-- `KEY_INDEX_POLICY` (R6, R228): what `SKP` and `SKNP` do with a key index above 15. -/
inductive KeyIndexPolicy where
  /-- `KeyIndexFault`. -/
  | fault
  /-- The index modulo 16. -/
  | mask
  deriving DecidableEq, Repr

/-- `SHIFT_MODE` (R6, R168, R170): the source operand of both shifts. -/
inductive ShiftMode where
  /-- `V[y]` is shifted into `V[x]` (the source's table). -/
  | vySource
  /-- `V[x]` is shifted in place; `y` is ignored. -/
  | vxInplace
  deriving DecidableEq, Repr

/-- The parameters of R6 that the core's rules depend on. The types hold R6's ranges: `FONT_BASE` is 0..0x1B0 and
`FONT_GLYPHS` is 80 bytes. -/
structure Config where
  /-- `FONT_BASE` (R6, R36, D1). -/
  fontBase : Fin 0x1B1
  /-- `FONT_GLYPHS` (R6, R36, D2): glyph `d` is bytes `5*d .. 5*d+4`. -/
  fontGlyphs : Vector Byte 80
  /-- `OOB_POLICY` (D3). -/
  oobPolicy : OobPolicy
  /-- `KEY_INDEX_POLICY` (D5). -/
  keyIndexPolicy : KeyIndexPolicy
  /-- `SHIFT_MODE` (D6). -/
  shiftMode : ShiftMode
  /-- `DECODE_STRICT` (D7). -/
  decodeStrict : Bool
  deriving DecidableEq, Repr

/-- The byte the random source gives at its `k`-th draw: a FREE VALUE. The spec gives neither algorithm nor seed (R34, D10,
U6), so it has no body and nothing can be proved of it (notes/assumptions/7.md). -/
opaque Config.freeByte : Nat → Byte

end Sys2Proof
end

