-- ==== Sys2Proof/Machine/Params.lean ====
section
/-! DEFINITION. The default parameter values of 00_scope.md R6 and the entry point. -/

namespace Sys2Proof.Machine

/-- `PROGRAM_BASE`: the entry point and the ROM's load address (R6, R281). -/
def programBase : Word := 0x200

/-- The default `FONT_BASE` (R36, D1, K2). PRESUMED: from general knowledge (notes/assumptions/2.md). -/
def defaultFontBase : Fin 0x1B1 := 0x050

/-- The default `FONT_GLYPHS`, the table of R36 (D2, K1). PRESUMED: from general knowledge (notes/assumptions/2.md). -/
def defaultFontGlyphs : Vector Byte 80 :=
  (#v[0xF0, 0x90, 0x90, 0x90, 0xF0,  0x20, 0x60, 0x20, 0x20, 0x70,
     0xF0, 0x10, 0xF0, 0x80, 0xF0,  0xF0, 0x10, 0xF0, 0x10, 0xF0,
     0x90, 0x90, 0xF0, 0x10, 0x10,  0xF0, 0x80, 0xF0, 0x10, 0xF0,
     0xF0, 0x80, 0xF0, 0x90, 0xF0,  0xF0, 0x10, 0x20, 0x40, 0x40] : Vector Byte 40) ++
  (#v[0xF0, 0x90, 0xF0, 0x90, 0xF0,  0xF0, 0x90, 0xF0, 0x10, 0xF0,
     0xF0, 0x90, 0xF0, 0x90, 0x90,  0xE0, 0x90, 0xE0, 0x90, 0xE0,
     0xF0, 0x80, 0x80, 0x80, 0xF0,  0xE0, 0x90, 0x90, 0x90, 0xE0,
     0xF0, 0x80, 0xF0, 0x80, 0xF0,  0xF0, 0x80, 0xF0, 0x80, 0x80] : Vector Byte 40)

/-- The default parameters (R6). -/
def defaultConfig : Config where
  fontBase := defaultFontBase
  fontGlyphs := defaultFontGlyphs
  oobPolicy := .fault
  keyIndexPolicy := .fault
  shiftMode := .vySource
  decodeStrict := false

end Sys2Proof.Machine
end

