-- ==== Sys2Proof/Syntax.lean ====
section
/-! DEFINITION. The instruction set: one constructor per row of spec/opcode_table.json (30_encoding.md R100, 34 rows).
Operand fields are those of R91. `CLS`, `RET`, `SE Vx, Vy` and `SNE Vx, Vy` also keep the four bits `dc` that no rule
gives a meaning (R95), so that a decoded instruction still knows its whole word (notes/assumptions/21.md). -/

namespace Sys2Proof

inductive Instr where
  /-- `00E0` CLS, R210. -/
  | cls (dc : Nibble)
  /-- `00EE` RET, R140. -/
  | ret (dc : Nibble)
  /-- `1nnn` JP nnn, R141. -/
  | jp (nnn : Addr12)
  /-- `2nnn` CALL nnn, R142. -/
  | call (nnn : Addr12)
  /-- `3xkk` SE Vx, kk, R143. -/
  | seVxKk (x : Nibble) (kk : Byte)
  /-- `4xkk` SNE Vx, kk, R144. -/
  | sneVxKk (x : Nibble) (kk : Byte)
  /-- `5xy0` SE Vx, Vy, R145. -/
  | seVxVy (x y dc : Nibble)
  /-- `6xkk` LD Vx, kk, R160. -/
  | ldVxKk (x : Nibble) (kk : Byte)
  /-- `7xkk` ADD Vx, kk, R161. -/
  | addVxKk (x : Nibble) (kk : Byte)
  /-- `8xy0` LD Vx, Vy, R162. -/
  | ldVxVy (x y : Nibble)
  /-- `8xy1` OR Vx, Vy, R163. -/
  | orVxVy (x y : Nibble)
  /-- `8xy2` AND Vx, Vy, R164. -/
  | andVxVy (x y : Nibble)
  /-- `8xy3` XOR Vx, Vy, R165. -/
  | xorVxVy (x y : Nibble)
  /-- `8xy4` ADD Vx, Vy, R166. -/
  | addVxVy (x y : Nibble)
  /-- `8xy5` SUB Vx, Vy, R167. -/
  | subVxVy (x y : Nibble)
  /-- `8xy6` SHR Vx, Vy, R168. -/
  | shrVxVy (x y : Nibble)
  /-- `8xy7` SUBN Vx, Vy, R169. -/
  | subnVxVy (x y : Nibble)
  /-- `8xyE` SHL Vx, Vy, R170. -/
  | shlVxVy (x y : Nibble)
  /-- `9xy0` SNE Vx, Vy, R146. -/
  | sneVxVy (x y dc : Nibble)
  /-- `Annn` LD I, nnn, R190. -/
  | ldI (nnn : Addr12)
  /-- `Bnnn` JP V0, nnn, R147. -/
  | jpV0 (nnn : Addr12)
  /-- `Cxkk` RND Vx, kk, R171. -/
  | rndVxKk (x : Nibble) (kk : Byte)
  /-- `Dxyn` DRW Vx, Vy, n, R211. -/
  | drw (x y n : Nibble)
  /-- `Ex9E` SKP Vx, R220. -/
  | skpVx (x : Nibble)
  /-- `ExA1` SKNP Vx, R221. -/
  | sknpVx (x : Nibble)
  /-- `Fx07` LD Vx, DT, R222. -/
  | ldVxDt (x : Nibble)
  /-- `Fx0A` LD Vx, K, R223. -/
  | ldVxK (x : Nibble)
  /-- `Fx15` LD DT, Vx, R224. -/
  | ldDtVx (x : Nibble)
  /-- `Fx18` LD ST, Vx, R225. -/
  | ldStVx (x : Nibble)
  /-- `Fx1E` ADD I, Vx, R191. -/
  | addIVx (x : Nibble)
  /-- `Fx29` LD F, Vx, R192. -/
  | ldFVx (x : Nibble)
  /-- `Fx33` LD B, Vx, R193. -/
  | ldBVx (x : Nibble)
  /-- `Fx55` LD [I], Vx, R194. -/
  | ldMemVx (x : Nibble)
  /-- `Fx65` LD Vx, [I], R195. -/
  | ldVxMem (x : Nibble)
  deriving DecidableEq, Repr

end Sys2Proof
end

