-- ==== Sys2Proof/WellFormed.lean ====
section
/-! DEFINITION. Well-formed instructions. Register numbers and immediates have their field's width as their type, so the
one thing to check is what `DECODE_STRICT` checks: the don't-care bits (30_encoding.md R95, R97). -/

namespace Sys2Proof

/-- The bits of the instruction that are neither family, key nor operand; 0 where the format has none (R92, R95). -/
def Instr.dontCare : Instr → Nibble
  | .cls dc => dc
  | .ret dc => dc
  | .seVxVy _ _ dc => dc
  | .sneVxVy _ _ dc => dc
  | .jp _ => 0
  | .call _ => 0
  | .seVxKk _ _ => 0
  | .sneVxKk _ _ => 0
  | .ldVxKk _ _ => 0
  | .addVxKk _ _ => 0
  | .ldVxVy _ _ => 0
  | .orVxVy _ _ => 0
  | .andVxVy _ _ => 0
  | .xorVxVy _ _ => 0
  | .addVxVy _ _ => 0
  | .subVxVy _ _ => 0
  | .shrVxVy _ _ => 0
  | .subnVxVy _ _ => 0
  | .shlVxVy _ _ => 0
  | .ldI _ => 0
  | .jpV0 _ => 0
  | .rndVxKk _ _ => 0
  | .drw _ _ _ => 0
  | .skpVx _ => 0
  | .sknpVx _ => 0
  | .ldVxDt _ => 0
  | .ldVxK _ => 0
  | .ldDtVx _ => 0
  | .ldStVx _ => 0
  | .addIVx _ => 0
  | .ldFVx _ => 0
  | .ldBVx _ => 0
  | .ldMemVx _ => 0
  | .ldVxMem _ => 0

/-- Under `DECODE_STRICT = true` the don't-care bits must be zero; under `false` every instruction is well-formed (R95). -/
def Instr.wellFormed (strict : Bool) (i : Instr) : Bool :=
  !strict || i.dontCare == 0

end Sys2Proof
end

