-- ==== Sys2Proof/Decode.lean ====
section
/-! DEFINITION. Decoding (30_encoding.md R90 to R97), the encoder, and the opcode map of R100. -/

namespace Sys2Proof

/-! ### Fields of an instruction word (R91) -/

/-- `fam` = `w[15:12]`. -/
def famField (w : Word) : Nibble := w.extractLsb' 12 4
/-- `x` = `w[11:8]`. -/
def xField (w : Word) : Nibble := w.extractLsb' 8 4
/-- `y` = `w[7:4]`. -/
def yField (w : Word) : Nibble := w.extractLsb' 4 4
/-- `n` = `w[3:0]`. -/
def nField (w : Word) : Nibble := w.extractLsb' 0 4
/-- `kk` = `w[7:0]`. -/
def kkField (w : Word) : Byte := w.extractLsb' 0 8
/-- `nnn` = `w[11:0]`. -/
def nnnField (w : Word) : Addr12 := w.extractLsb' 0 12

/-! ### The decoder -/

/-- Why a word is no instruction (R97). -/
inductive WordReject where
  /-- An unmatched code of family 0, E or F, or a strict don't-care violation (R97, R241). -/
  | invalidOpcode (w : Word)
  /-- An unmatched code of family 8 (R97, R242, C2). -/
  | internalError (w : Word)
  deriving DecidableEq, Repr

/-- Accept `i`, or under `strict` reject it when its don't-care bits are not zero (R95, R97). -/
def acceptDontCare (strict : Bool) (w : Word) (i : Instr) : Except WordReject Instr :=
  if i.wellFormed strict then .ok i else .error (.invalidOpcode w)

/-- Family 0: the key is `w[7:0]` (R95, R96, D8). -/
def decodeFam0 (strict : Bool) (w : Word) : Except WordReject Instr :=
  match kkField w with
  | 0xE0#8 => acceptDontCare strict w (.cls (xField w))
  | 0xEE#8 => acceptDontCare strict w (.ret (xField w))
  | _ => .error (.invalidOpcode w)

/-- Family 8: the key is `w[3:0]` (R95, R96); an unmatched key is a malformed ALU sub-opcode (R97, C2). -/
def decodeFam8 (w : Word) : Except WordReject Instr :=
  match nField w with
  | 0x0#4 => .ok (.ldVxVy (xField w) (yField w))
  | 0x1#4 => .ok (.orVxVy (xField w) (yField w))
  | 0x2#4 => .ok (.andVxVy (xField w) (yField w))
  | 0x3#4 => .ok (.xorVxVy (xField w) (yField w))
  | 0x4#4 => .ok (.addVxVy (xField w) (yField w))
  | 0x5#4 => .ok (.subVxVy (xField w) (yField w))
  | 0x6#4 => .ok (.shrVxVy (xField w) (yField w))
  | 0x7#4 => .ok (.subnVxVy (xField w) (yField w))
  | 0xE#4 => .ok (.shlVxVy (xField w) (yField w))
  | _ => .error (.internalError w)

/-- Family E: the key is `w[7:0]` (R95, R96, D8). -/
def decodeFamE (w : Word) : Except WordReject Instr :=
  match kkField w with
  | 0x9E#8 => .ok (.skpVx (xField w))
  | 0xA1#8 => .ok (.sknpVx (xField w))
  | _ => .error (.invalidOpcode w)

/-- Family F: the key is `w[7:0]` (R95, R96). -/
def decodeFamF (w : Word) : Except WordReject Instr :=
  match kkField w with
  | 0x07#8 => .ok (.ldVxDt (xField w))
  | 0x0A#8 => .ok (.ldVxK (xField w))
  | 0x15#8 => .ok (.ldDtVx (xField w))
  | 0x18#8 => .ok (.ldStVx (xField w))
  | 0x1E#8 => .ok (.addIVx (xField w))
  | 0x29#8 => .ok (.ldFVx (xField w))
  | 0x33#8 => .ok (.ldBVx (xField w))
  | 0x55#8 => .ok (.ldMemVx (xField w))
  | 0x65#8 => .ok (.ldVxMem (xField w))
  | _ => .error (.invalidOpcode w)

/-- `Decode(w)` of R96, total on all 65536 words. `strict` is `DECODE_STRICT`. The last arm is family F, the one value of
the 4-bit field that the arms before it leave. -/
def decodeWord (strict : Bool) (w : Word) : Except WordReject Instr :=
  match famField w with
  | 0x0#4 => decodeFam0 strict w
  | 0x1#4 => .ok (.jp (nnnField w))
  | 0x2#4 => .ok (.call (nnnField w))
  | 0x3#4 => .ok (.seVxKk (xField w) (kkField w))
  | 0x4#4 => .ok (.sneVxKk (xField w) (kkField w))
  | 0x5#4 => acceptDontCare strict w (.seVxVy (xField w) (yField w) (nField w))
  | 0x6#4 => .ok (.ldVxKk (xField w) (kkField w))
  | 0x7#4 => .ok (.addVxKk (xField w) (kkField w))
  | 0x8#4 => decodeFam8 w
  | 0x9#4 => acceptDontCare strict w (.sneVxVy (xField w) (yField w) (nField w))
  | 0xA#4 => .ok (.ldI (nnnField w))
  | 0xB#4 => .ok (.jpV0 (nnnField w))
  | 0xC#4 => .ok (.rndVxKk (xField w) (kkField w))
  | 0xD#4 => .ok (.drw (xField w) (yField w) (nField w))
  | 0xE#4 => decodeFamE w
  | _ => decodeFamF w

/-- Two instruction bytes as one word: `b1` is `w[15:8]` (R7, R63, R70). -/
def wordOfBytes (b1 b2 : Byte) : Word := b1 ++ b2

/-- Why a list of bytes does not begin with an instruction. -/
inductive BytesReject where
  /-- Fewer than the two bytes every instruction has (R90); no step raises it, a fetch always has two bytes. -/
  | truncated
  /-- Two bytes that are no instruction (R97). -/
  | word (r : WordReject)
  deriving DecidableEq, Repr

/-- Decode the instruction at the front of a list of bytes, lowest address first (R90), with the bytes after it. -/
def decode (strict : Bool) : List Byte → Except BytesReject (Instr × List Byte)
  | b1 :: b2 :: rest =>
    match decodeWord strict (wordOfBytes b1 b2) with
    | .ok i => .ok (i, rest)
    | .error r => .error (.word r)
  | _ => .error .truncated

/-! ### The encoder (R92, R100) -/

/-- Format NNN. -/
def packNNN (fam : Nibble) (nnn : Addr12) : Word := fam ++ nnn
/-- Formats XKK, X and Z: the low byte is `kk` or the secondary key. -/
def packXKK (fam x : Nibble) (kk : Byte) : Word := fam ++ x ++ kk
/-- Formats XY and XYN: the low nibble is the secondary key or `n`. -/
def packXYN (fam x y n : Nibble) : Word := fam ++ x ++ y ++ n

/-- The word of an instruction (R100). -/
def encode : Instr → Word
  | .cls dc => packXKK 0x0 dc 0xE0
  | .ret dc => packXKK 0x0 dc 0xEE
  | .jp nnn => packNNN 0x1 nnn
  | .call nnn => packNNN 0x2 nnn
  | .seVxKk x kk => packXKK 0x3 x kk
  | .sneVxKk x kk => packXKK 0x4 x kk
  | .seVxVy x y dc => packXYN 0x5 x y dc
  | .ldVxKk x kk => packXKK 0x6 x kk
  | .addVxKk x kk => packXKK 0x7 x kk
  | .ldVxVy x y => packXYN 0x8 x y 0x0
  | .orVxVy x y => packXYN 0x8 x y 0x1
  | .andVxVy x y => packXYN 0x8 x y 0x2
  | .xorVxVy x y => packXYN 0x8 x y 0x3
  | .addVxVy x y => packXYN 0x8 x y 0x4
  | .subVxVy x y => packXYN 0x8 x y 0x5
  | .shrVxVy x y => packXYN 0x8 x y 0x6
  | .subnVxVy x y => packXYN 0x8 x y 0x7
  | .shlVxVy x y => packXYN 0x8 x y 0xE
  | .sneVxVy x y dc => packXYN 0x9 x y dc
  | .ldI nnn => packNNN 0xA nnn
  | .jpV0 nnn => packNNN 0xB nnn
  | .rndVxKk x kk => packXKK 0xC x kk
  | .drw x y n => packXYN 0xD x y n
  | .skpVx x => packXKK 0xE x 0x9E
  | .sknpVx x => packXKK 0xE x 0xA1
  | .ldVxDt x => packXKK 0xF x 0x07
  | .ldVxK x => packXKK 0xF x 0x0A
  | .ldDtVx x => packXKK 0xF x 0x15
  | .ldStVx x => packXKK 0xF x 0x18
  | .addIVx x => packXKK 0xF x 0x1E
  | .ldFVx x => packXKK 0xF x 0x29
  | .ldBVx x => packXKK 0xF x 0x33
  | .ldMemVx x => packXKK 0xF x 0x55
  | .ldVxMem x => packXKK 0xF x 0x65

/-- The two bytes of a word, lowest address first (R63, R90). -/
def bytesOfWord (w : Word) : List Byte := [w.extractLsb' 8 8, w.extractLsb' 0 8]

/-! ### The opcode map (R100) -/

/-- One row of R100: a word selects it iff `w & mask = pattern`; the strict mask is used under `DECODE_STRICT`. -/
structure OpcodeRow where
  pattern : Word
  mask : Word
  strictMask : Word
  deriving DecidableEq, Repr

/-- The mask in force. -/
def OpcodeRow.maskOf (r : OpcodeRow) (strict : Bool) : Word :=
  if strict then r.strictMask else r.mask

/-- The row of R100 an instruction stands in. -/
def Instr.row : Instr → OpcodeRow
  | .cls _ => ⟨0x00E0, 0xF0FF, 0xFFFF⟩
  | .ret _ => ⟨0x00EE, 0xF0FF, 0xFFFF⟩
  | .jp _ => ⟨0x1000, 0xF000, 0xF000⟩
  | .call _ => ⟨0x2000, 0xF000, 0xF000⟩
  | .seVxKk _ _ => ⟨0x3000, 0xF000, 0xF000⟩
  | .sneVxKk _ _ => ⟨0x4000, 0xF000, 0xF000⟩
  | .seVxVy _ _ _ => ⟨0x5000, 0xF000, 0xF00F⟩
  | .ldVxKk _ _ => ⟨0x6000, 0xF000, 0xF000⟩
  | .addVxKk _ _ => ⟨0x7000, 0xF000, 0xF000⟩
  | .ldVxVy _ _ => ⟨0x8000, 0xF00F, 0xF00F⟩
  | .orVxVy _ _ => ⟨0x8001, 0xF00F, 0xF00F⟩
  | .andVxVy _ _ => ⟨0x8002, 0xF00F, 0xF00F⟩
  | .xorVxVy _ _ => ⟨0x8003, 0xF00F, 0xF00F⟩
  | .addVxVy _ _ => ⟨0x8004, 0xF00F, 0xF00F⟩
  | .subVxVy _ _ => ⟨0x8005, 0xF00F, 0xF00F⟩
  | .shrVxVy _ _ => ⟨0x8006, 0xF00F, 0xF00F⟩
  | .subnVxVy _ _ => ⟨0x8007, 0xF00F, 0xF00F⟩
  | .shlVxVy _ _ => ⟨0x800E, 0xF00F, 0xF00F⟩
  | .sneVxVy _ _ _ => ⟨0x9000, 0xF000, 0xF00F⟩
  | .ldI _ => ⟨0xA000, 0xF000, 0xF000⟩
  | .jpV0 _ => ⟨0xB000, 0xF000, 0xF000⟩
  | .rndVxKk _ _ => ⟨0xC000, 0xF000, 0xF000⟩
  | .drw _ _ _ => ⟨0xD000, 0xF000, 0xF000⟩
  | .skpVx _ => ⟨0xE09E, 0xF0FF, 0xF0FF⟩
  | .sknpVx _ => ⟨0xE0A1, 0xF0FF, 0xF0FF⟩
  | .ldVxDt _ => ⟨0xF007, 0xF0FF, 0xF0FF⟩
  | .ldVxK _ => ⟨0xF00A, 0xF0FF, 0xF0FF⟩
  | .ldDtVx _ => ⟨0xF015, 0xF0FF, 0xF0FF⟩
  | .ldStVx _ => ⟨0xF018, 0xF0FF, 0xF0FF⟩
  | .addIVx _ => ⟨0xF01E, 0xF0FF, 0xF0FF⟩
  | .ldFVx _ => ⟨0xF029, 0xF0FF, 0xF0FF⟩
  | .ldBVx _ => ⟨0xF033, 0xF0FF, 0xF0FF⟩
  | .ldMemVx _ => ⟨0xF055, 0xF0FF, 0xF0FF⟩
  | .ldVxMem _ => ⟨0xF065, 0xF0FF, 0xF0FF⟩

/-! ### The host's entry -/

/-- An instruction whose bits are `w`, of which the lowest `nbits` are given and the rest are 0, as a word. Bit 0 of the
table's numbering is the least significant bit of the one 16-bit word every instruction is (R90). -/
def tableWord (nbits w : Nat) : Word := BitVec.ofNat 16 (w % 2 ^ nbits)

/-- The instruction the decoder reads from that word laid out in memory order, under the default parameters. -/
def decodeTableWord (nbits w : Nat) : Option Instr :=
  match decode Machine.defaultConfig.decodeStrict (bytesOfWord (tableWord nbits w)) with
  | .ok (i, _) => some i
  | .error _ => none

end Sys2Proof
end

