-- ==== Sys2Proof/Machine/State.lean ====
section
/-! DEFINITION. The state of the machine (10_state.md), its reset value (R41), and the reasons a step can stop (R240). -/

namespace Sys2Proof.Machine

/-- Memory: the cells whose byte differs from the reset contents, by rising address (notes/assumptions/22.md). -/
abbrev Memory := List Host.Cell

/-- The framebuffer, R29: row `r` (0..31, top to bottom) holds the one-bit cells of its 64 columns, the cell of column `c`
being bit `c`. It is XORed with sprite masks (R212), which is why a row is a bit vector (notes/assumptions/9.md). -/
abbrev Frame := Vector (BitVec 64) 32

/-- The Processor State. -/
structure State where
  /-- The parameters of R6: the MODEL'S OWN field; nothing ever changes it (notes/assumptions/1.md). -/
  cfg : Config
  /-- `V[0]`..`V[15]`, R20; VF = `V[15]`, R21. -/
  v : Vector Byte 16
  /-- `I`, R22. -/
  i : Word
  /-- `PC`, R23. -/
  pc : Word
  /-- `STACK[0]`..`STACK[15]`, R24. -/
  stack : Vector Word 16
  /-- `SP`, 0..16, R25. -/
  sp : Fin 17
  /-- `DT`, R26. -/
  dt : Byte
  /-- `ST`, R27. -/
  st : Byte
  /-- `FB`, R29. -/
  fb : Frame
  /-- `REDRAW`, R30. -/
  redraw : Bool
  /-- `KEY[0]`..`KEY[15]`, R31. -/
  key : Vector Bool 16
  /-- `AWP`, R32. -/
  awp : Bool
  /-- `AWR`, R32. -/
  awr : Bool
  /-- `MEM`, R35. -/
  mem : Memory
  /-- How many bytes have been drawn from the random source, R34: the MODEL'S OWN field, the argument of the free value
  `Config.freeByte` (notes/assumptions/7.md). -/
  draws : Nat
  deriving DecidableEq, Repr

/-- The kinds of fault (R240). Each is terminal (R248). -/
inductive Fault where
  /-- Raised by decode, `cycle` step 6: an unmatched code of family 0, E or F (R241). The machine's own fault: safe. -/
  | invalidOpcode (w : Word)
  /-- Raised by `CALL` at `SP` = 16, `RET` at `SP` = 0, and decode of an unmatched code of family 8 (R242). The machine's
  own fault: safe. -/
  | internalError (w : Word)
  /-- Raised by fetch, `DRW`, `LD B`, `LD [I]`, `LD Vx, [I]` reaching past 4095 under `OOB_POLICY = fault` (R243), with the
  highest address of the span. The spec's own choice D3; safe: the model stops where the real design's effect is
  undefined. -/
  | addressFault (highest : Nat)
  /-- Raised by `SKP`, `SKNP` with `V[x]` > 15 under `KEY_INDEX_POLICY = fault` (R244). The spec's own choice D5; safe for
  the same reason. -/
  | keyIndexFault (v : Byte)
  deriving DecidableEq, Repr

/-- What the model declines. -/
inductive Refusal where
  /-- An instruction without a meaning in this model, by name, in `exec`'s arms only. Safe. No arm raises it. -/
  | notModelled (mnemonic : String)
  /-- Raised by `loadRom` for an image longer than 3584 bytes (R282, D19): the spec gives it no meaning. Safe. No step
  raises it. -/
  | imageTooLong (length : Nat)
  deriving DecidableEq, Repr

/-- The state after reset with given parameters: every element at the value of R41's table. -/
def State.resetWith (c : Config) : State where
  cfg := c
  v := Vector.replicate 16 0
  i := 0
  pc := programBase
  stack := Vector.replicate 16 0
  sp := 0
  dt := 0
  st := 0
  fb := Vector.replicate 32 0
  redraw := false
  key := Vector.replicate 16 false
  awp := false
  awr := false
  mem := []
  draws := 0

/-- The state after reset with the default parameters (R41, R6). -/
def State.reset : State := State.resetWith defaultConfig

end Sys2Proof.Machine
end

