-- ==== Sys2Proof/Machine/Ops.lean ====
section
/-! DEFINITION. The named operations over registers, memory and framebuffer, raising a fault, the timers' countdown, the
key-wait gate, and fetch (10_state.md, 20_memory.md, 40_cycle_driver.md). -/

namespace Sys2Proof.Machine

/-- The outcome of an instruction or a step (R11). -/
abbrev Result := Host.Outcome State Fault Refusal

/-! ### Faults -/

/-- Raising a fault (R10, R248). This is the machine's one way of taking an exception: there is no trap entry (no state is
saved, no mode changes, no vector is fetched) and no return from one (R249); the run is over. The state left behind is
`CycleEnd.fault`'s (R126). -/
def raise (r : Fault) : Result := .fault r

/-! ### General registers -/

/-- `V[x]` (R10, R20). -/
def State.getV (s : State) (x : Nibble) : Byte := s.v[x.toNat]'x.isLt

/-- `V[x] <- b` (R10, R20). No register is hard-wired. -/
def State.setV (s : State) (x : Nibble) (b : Byte) : State :=
  { s with v := s.v.set x.toNat b x.isLt }

/-- The number of VF (R21). -/
def vf : Nibble := 15

/-! ### Memory -/

/-- The byte at `a` after reset (R35, R36, R41): the font's bytes at `FONT_BASE`.., 0 elsewhere. This is what an address
that `State.mem` does not list reads as. -/
def resetByte (c : Config) (a : Nat) : Byte :=
  if c.fontBase.val ≤ a then c.fontGlyphs[a - c.fontBase.val]?.getD 0 else 0

/-- The byte at address `a`. -/
def Memory.get (c : Config) : Memory → Nat → Byte
  | [], a => resetByte c a
  | (k, b) :: rest, a => if a = k then b else Memory.get c rest a

/-- The cells but that at `a`. -/
def Memory.erase (m : Memory) (a : Nat) : Memory := m.filter (fun cell => cell.1 ≠ a)

/-- The cells with one more, before the first of a higher address. -/
def Memory.insert : Memory → Nat → Byte → Memory
  | [], a, b => [(a, b)]
  | (k, c) :: rest, a, b => if a < k then (a, b) :: (k, c) :: rest else (k, c) :: Memory.insert rest a b

/-- Write byte `b` at address `a`; writing the reset byte removes the cell. -/
def Memory.set (c : Config) (m : Memory) (a : Nat) (b : Byte) : Memory :=
  if b = resetByte c a then Memory.erase m a else Memory.insert (Memory.erase m a) a b

/-- The canonical form: addresses strictly rising, all in 0..4095 (R60), no cell equal to its reset byte. -/
abbrev Memory.wf (c : Config) (m : Memory) : Prop :=
  m.Pairwise (fun p q => p.1 < q.1) ∧ ∀ p ∈ m, p.1 < 4096 ∧ p.2 ≠ resetByte c p.1

/-- `MEM[a]` of a state, `a` in 0..4095. -/
def State.byteAt (s : State) (a : Nat) : Byte := Memory.get s.cfg s.mem a

/-- `EA(addr)` (R68, R76). -/
def effAddr (c : Config) (addr : Nat) : Nat :=
  match c.oobPolicy with
  | .fault => addr
  | .wrap => addr % 4096

/-- The condition under which `CheckSpan(addr, len)` raises (R67). -/
abbrev spanFaults (c : Config) (addr len : Nat) : Prop :=
  c.oobPolicy = .fault ∧ 0 < len ∧ 4095 < addr + len - 1

/-- `CheckSpan(addr, len)` (R67), before the rest `k` of the instruction. -/
def checkSpan (s : State) (addr len : Nat) (k : Result) : Result :=
  if spanFaults s.cfg addr len then raise (.addressFault (addr + len - 1)) else k

/-- `MemRead(addr, 1)` (R68). -/
def memRead (s : State) (addr : Nat) : Byte := s.byteAt (effAddr s.cfg addr)

/-- One byte stored at `EA(addr)`, in memory alone (R69). Outside the address space nothing is stored: no step comes
there, since a `CheckSpan` has raised before (R67, R68). -/
def Memory.store (c : Config) (m : Memory) (addr : Nat) (b : Byte) : Memory :=
  if effAddr c addr < 4096 then Memory.set c m (effAddr c addr) b else m

/-- Bytes stored at ascending addresses, one after the other (R63, R65). -/
def Memory.storeAll (c : Config) : Memory → Nat → List Byte → Memory
  | m, _, [] => m
  | m, addr, b :: bs => Memory.storeAll c (Memory.store c m addr b) (addr + 1) bs

/-- `MemWrite` of each of `bs` at `addr`, `addr + 1`, … (R65, R69). -/
def State.storeBytes (s : State) (addr : Nat) (bs : List Byte) : State :=
  { s with mem := Memory.storeAll s.cfg s.mem addr bs }

/-- `MemRead` of `n` bytes at `addr`, `addr + 1`, … (R65, R68). -/
def State.loadBytes (s : State) (addr n : Nat) : List Byte :=
  (List.range n).map (fun k => memRead s (addr + k))

/-! ### Framebuffer -/

/-- Cell `p` = `r*64 + c` of the framebuffer, `p` in 0..2047 (R29). -/
def Frame.cell (f : Frame) (p : Nat) : Bool := (f[p / 64]?.getD 0).getLsbD (p % 64)

/-- `FB[p] <- FB[p] ^ 1` (R211). -/
def Frame.flip (f : Frame) (p : Nat) : Frame :=
  f.setIfInBounds (p / 64) (f[p / 64]?.getD 0 ^^^ BitVec.twoPow 64 (p % 64))

/-- The framebuffer with every cell 0 (R210). -/
def Frame.clear : Frame := Vector.replicate 32 0

/-- `FB[p]` of a state. -/
def State.cell (s : State) (p : Nat) : Bool := Frame.cell s.fb p

/-! ### Random source -/

/-- `DrawByte()` (R34): a free byte, and the draw counted. -/
def drawByte (s : State) : Byte × State := (Config.freeByte s.draws, { s with draws := s.draws + 1 })

/-! ### The parts of a cycle before the handler -/

/-- One timer's countdown: by 1 if it is not 0 (R121). -/
def countDownTimer (t : Byte) : Byte := if t = 0 then 0 else t - 1

/-- Steps 1 and 2 of a cycle (R120, R121). -/
def State.countDown (s : State) : State :=
  { s with dt := countDownTimer s.dt, st := countDownTimer s.st }

/-- Step 3's condition: the key-wait gate is closed (R120, R122). -/
def State.gated (s : State) : Bool := s.awp || s.awr

/-- Step 4, the fetch (R70, R123). -/
def fetch (s : State) : Except Fault Word :=
  if spanFaults s.cfg s.pc.toNat 2 then .error (.addressFault (s.pc.toNat + 1))
  else .ok (wordOfBytes (memRead s s.pc.toNat) (memRead s (s.pc.toNat + 1)))

/-- Step 5, the advance before dispatch (R124); `PC` wraps modulo 65536 (R77). -/
def State.advancePc (s : State) : State := { s with pc := s.pc + 2 }

/-- The fault a rejected word raises (R97, R241, R242). -/
def rejectFault : WordReject → Fault
  | .invalidOpcode w => .invalidOpcode w
  | .internalError w => .internalError w

end Sys2Proof.Machine
end

