-- ==== Sys2Proof/Machine/Flags.lean ====
section
/-! DEFINITION. The flag computations (10_state.md R21, 42_load_and_alu.md R172, R173) and the two orders of writing result
and flag. -/

namespace Sys2Proof.Machine

/-- A flag write stores the whole byte 0x00 or 0x01 (R21). -/
def flagByte (b : Bool) : Byte := if b then 1 else 0

/-- `VF <- b`. -/
def State.setFlag (s : State) (b : Bool) : State := s.setV vf (flagByte b)

/-- Carry of `a + b`: the 9-bit sum exceeds 255 (R166, R173). -/
def carryOf (a b : Byte) : Bool := 255 < a.toNat + b.toNat

/-- No borrow in `a - b`: `a >= b` (R167, R169, R173). -/
def noBorrow (a b : Byte) : Bool := b.toNat ≤ a.toNat

/-- The bit a right shift by one shifts out (R168). -/
def bitOutLow (a : Byte) : Bool := a.getLsbD 0

/-- The bit a left shift by one shifts out (R170). -/
def bitOutHigh (a : Byte) : Bool := a.getLsbD 7

/-- Result first, then the flag: with `x` = F the flag stands (R163 to R166, R172, D9). -/
def resultThenFlag (s : State) (x : Nibble) (r : Byte) (f : Bool) : State := (s.setV x r).setFlag f

/-- Flag first, then the result: with `x` = F the result stands (R167 to R170, R172, D9). -/
def flagThenResult (s : State) (x : Nibble) (f : Bool) (r : Byte) : State := (s.setFlag f).setV x r

end Sys2Proof.Machine
end

