-- ==== Sys2Proof/Machine/Operands.lean ====
section
/-! DEFINITION. Operand forms: the immediate address, the skip, the data span at `I`, the key index, the shift's source,
the least pressed key (30_encoding.md R93, 43_index_and_memory.md R196, 45_keypad_and_timers.md R228). -/

namespace Sys2Proof.Machine

/-- `zext_16(nnn)` (R93). -/
def zext16 (nnn : Addr12) : Word := nnn.setWidth 16

/-- A skip: a further +2 on the advanced `PC` when the condition holds (R124, R148). -/
def skipIf (cond : Bool) (s : State) : State :=
  if cond then { s with pc := s.pc + 2 } else s

/-- The data address `I + k`, a natural number (R77, R196). -/
def State.dataAddr (s : State) (k : Nat) : Nat := s.i.toNat + k

/-- The shifts' source operand under `SHIFT_MODE` (R168, R170). -/
def shiftSource (s : State) (x y : Nibble) : Byte :=
  match s.cfg.shiftMode with
  | .vySource => s.getV y
  | .vxInplace => s.getV x

/-- `KeyIndex(v)` (R228), before the rest `k` of the instruction. `v mod 16` is the low nibble. -/
def withKeyIndex (s : State) (v : Byte) (k : Nibble → Result) : Result :=
  if v.toNat ≤ 15 then k (v.setWidth 4)
  else
    match s.cfg.keyIndexPolicy with
    | .fault => raise (.keyIndexFault v)
    | .mask => k (v.setWidth 4)

/-- `KEY[k]` (R31). -/
def State.keyDown (s : State) (k : Nibble) : Bool := s.key[k.toNat]'k.isLt

/-- The least pressed key, if any (R223). -/
def firstKey (s : State) : Option Nat := s.key.toList.findIdx? id

end Sys2Proof.Machine
end

