-- ==== Sys2Proof/Machine/Display.lean ====
section
/-! DEFINITION. Display instructions (44_display.md R210 to R213). -/

namespace Sys2Proof.Machine

/-- `CLS` (R210). -/
def execCls (s : State) : Result := .next { s with fb := Frame.clear, redraw := true }

/-- The cell of column `x0 + j` and row `y0 + i`, each coordinate wrapped (R211). -/
def spriteCell (x0 y0 i j : Nat) : Nat := (y0 + i) % 32 * 64 + (x0 + j) % 64

/-- Bit `j` of a sprite byte from the left, the leftmost being bit 7 (R211). -/
def spriteBit (b : Byte) (j : Nat) : Bool := b.getLsbD (7 - j)

/-- One pixel of R211's inner loop: the framebuffer and whether a lit cell has been turned off so far. -/
def drawPixel (x0 y0 i : Nat) (b : Byte) (acc : Frame × Bool) (j : Nat) : Frame × Bool :=
  if spriteBit b j then
    (Frame.flip acc.1 (spriteCell x0 y0 i j), acc.2 || Frame.cell acc.1 (spriteCell x0 y0 i j))
  else acc

/-- One row of R211: `j` in `0..7`. -/
def drawRow (x0 y0 i : Nat) (b : Byte) (acc : Frame × Bool) : Frame × Bool :=
  (List.range 8).foldl (drawPixel x0 y0 i b) acc

/-- The rows of R211, top to bottom, the first of them being row `i`. -/
def drawRows (x0 y0 : Nat) : Nat → List Byte → Frame × Bool → Frame × Bool
  | _, [], acc => acc
  | i, b :: bs, acc => drawRows x0 y0 (i + 1) bs (drawRow x0 y0 i b acc)

/-- The framebuffer and the collision after drawing `rows` at (`a`, `b`) (R211): the start is reduced modulo 64 and 32. -/
def drawSprite (f : Frame) (a b : Byte) (rows : List Byte) : Frame × Bool :=
  drawRows (a.toNat % 64) (b.toNat % 32) 0 rows (f, false)

/-- `DRW Vx, Vy, n` (R211): coordinates from the registers before VF is written; VF and REDRAW are always written. -/
def execDrw (x y n : Nibble) (s : State) : Result :=
  let drawn := drawSprite s.fb (s.getV x) (s.getV y) (s.loadBytes (s.dataAddr 0) n.toNat)
  checkSpan s (s.dataAddr 0) n.toNat
    (.next (State.setFlag { s with fb := drawn.1, redraw := true } drawn.2))

end Sys2Proof.Machine
end

