-- ==== Sys2Proof/Machine/FlowControl.lean ====
section
/-! DEFINITION. Control transfer (41_flow_control.md R140 to R147). On entry `PC` is the instruction's address + 2 (R124). -/

namespace Sys2Proof.Machine

/-- `RET` (R140). The fault's payload is the instruction's word (R240). -/
def execRet (dc : Nibble) (s : State) : Result :=
  if h : 0 < s.sp.val then
    .next { s with
      sp := ⟨s.sp.val - 1, by omega⟩
      pc := s.stack[s.sp.val - 1] }
  else raise (.internalError (encode (.ret dc)))

/-- `JP nnn` (R141). -/
def execJp (nnn : Addr12) (s : State) : Result := .next { s with pc := zext16 nnn }

/-- `CALL nnn` (R142): the pushed `PC` is the post-advance return address. -/
def execCall (nnn : Addr12) (s : State) : Result :=
  if h : s.sp.val < 16 then
    .next { s with
      stack := s.stack.set s.sp.val s.pc
      sp := ⟨s.sp.val + 1, by omega⟩
      pc := zext16 nnn }
  else raise (.internalError (encode (.call nnn)))

/-- `SE Vx, kk` (R143). -/
def execSeVxKk (x : Nibble) (kk : Byte) (s : State) : Result := .next (skipIf (s.getV x == kk) s)

/-- `SNE Vx, kk` (R144). -/
def execSneVxKk (x : Nibble) (kk : Byte) (s : State) : Result := .next (skipIf (s.getV x != kk) s)

/-- `SE Vx, Vy` (R145). -/
def execSeVxVy (x y : Nibble) (s : State) : Result := .next (skipIf (s.getV x == s.getV y) s)

/-- `SNE Vx, Vy` (R146). -/
def execSneVxVy (x y : Nibble) (s : State) : Result := .next (skipIf (s.getV x != s.getV y) s)

/-- `JP V0, nnn` (R147). -/
def execJpV0 (nnn : Addr12) (s : State) : Result :=
  .next { s with pc := (s.getV 0).setWidth 16 + zext16 nnn }

end Sys2Proof.Machine
end

