-- ==== Sys2Proof/Machine/IndexMemory.lean ====
section
/-! DEFINITION. Index register and memory transfer (43_index_and_memory.md R190 to R196). -/

namespace Sys2Proof.Machine

/-- `LD I, nnn` (R190). -/
def execLdI (nnn : Addr12) (s : State) : Result := .next { s with i := zext16 nnn }

/-- `ADD I, Vx` (R191): modulo 65536, no flag. -/
def execAddIVx (x : Nibble) (s : State) : Result :=
  .next { s with i := s.i + (s.getV x).setWidth 16 }

/-- `LD F, Vx` (R192): the whole byte counts, no masking. -/
def execLdFVx (x : Nibble) (s : State) : Result :=
  .next { s with i := BitVec.ofNat 16 (s.cfg.fontBase.val + 5 * (s.getV x).toNat) }

/-- The three decimal digits of a byte, hundreds first (R193). -/
def decimalDigits (a : Byte) : List Byte :=
  [BitVec.ofNat 8 (a.toNat / 100), BitVec.ofNat 8 (a.toNat / 10 % 10), BitVec.ofNat 8 (a.toNat % 10)]

/-- `LD B, Vx` (R193). -/
def execLdBVx (x : Nibble) (s : State) : Result :=
  checkSpan s (s.dataAddr 0) 3 (.next (s.storeBytes (s.dataAddr 0) (decimalDigits (s.getV x))))

/-- `I <- (I + x + 1) mod 65536`, the post-increment of R194 and R195. -/
def State.bumpI (s : State) (x : Nibble) : State := { s with i := s.i + BitVec.ofNat 16 (x.toNat + 1) }

/-- `LD [I], Vx` (R194): `x` is the register number (C5). -/
def execLdMemVx (x : Nibble) (s : State) : Result :=
  checkSpan s (s.dataAddr 0) (x.toNat + 1)
    (.next ((s.storeBytes (s.dataAddr 0) (s.v.toList.take (x.toNat + 1))).bumpI x))

/-- `V[k] <- MemRead(I + k, 1)` for `k` in `0..x` (R195). -/
def State.loadRegs (s : State) (x : Nibble) : State :=
  { s with v := s.v.mapIdx (fun k b => if k ≤ x.toNat then memRead s (s.dataAddr k) else b) }

/-- `LD Vx, [I]` (R195). -/
def execLdVxMem (x : Nibble) (s : State) : Result :=
  checkSpan s (s.dataAddr 0) (x.toNat + 1) (.next ((s.loadRegs x).bumpI x))

end Sys2Proof.Machine
end

