-- ==== Sys2Proof/Machine/KeypadTimers.lean ====
section
/-! DEFINITION. Keypad and timer instructions (45_keypad_and_timers.md R220 to R225). -/

namespace Sys2Proof.Machine

/-- `SKP Vx` (R220). -/
def execSkpVx (x : Nibble) (s : State) : Result :=
  withKeyIndex s (s.getV x) (fun k => .next (skipIf (s.keyDown k) s))

/-- `SKNP Vx` (R221). -/
def execSknpVx (x : Nibble) (s : State) : Result :=
  withKeyIndex s (s.getV x) (fun k => .next (skipIf (!s.keyDown k) s))

/-- `LD Vx, DT` (R222). -/
def execLdVxDt (x : Nibble) (s : State) : Result := .next (s.setV x s.dt)

/-- `LD Vx, K` (R223): the least pressed key and AWAITING_RELEASE, or AWAITING_PRESS and the advance undone. -/
def execLdVxK (x : Nibble) (s : State) : Result :=
  match firstKey s with
  | some k => .next { s.setV x (BitVec.ofNat 8 k) with awr := true }
  | none => .next { s with awp := true, pc := s.pc - 2 }

/-- `LD DT, Vx` (R224). -/
def execLdDtVx (x : Nibble) (s : State) : Result := .next { s with dt := s.getV x }

/-- `LD ST, Vx` (R225). -/
def execLdStVx (x : Nibble) (s : State) : Result := .next { s with st := s.getV x }

end Sys2Proof.Machine
end

