-- ==== Sys2Proof/Machine/LoadAlu.lean ====
section
/-! DEFINITION. Register loads, arithmetic, logic, shifts and RND (42_load_and_alu.md R160 to R174). Operands are sampled
before any write (R172). None of these touches anything but the general registers and, for RND, the random source. -/

namespace Sys2Proof.Machine

/-- `LD Vx, kk` (R160). -/
def execLdVxKk (x : Nibble) (kk : Byte) (s : State) : Result := .next (s.setV x kk)

/-- `ADD Vx, kk` (R161): no flag. -/
def execAddVxKk (x : Nibble) (kk : Byte) (s : State) : Result := .next (s.setV x (s.getV x + kk))

/-- `LD Vx, Vy` (R162). -/
def execLdVxVy (x y : Nibble) (s : State) : Result := .next (s.setV x (s.getV y))

/-- `OR Vx, Vy` (R163): VF becomes 0. -/
def execOrVxVy (x y : Nibble) (s : State) : Result :=
  .next (resultThenFlag s x (s.getV x ||| s.getV y) false)

/-- `AND Vx, Vy` (R164): VF becomes 0. -/
def execAndVxVy (x y : Nibble) (s : State) : Result :=
  .next (resultThenFlag s x (s.getV x &&& s.getV y) false)

/-- `XOR Vx, Vy` (R165): VF becomes 0. -/
def execXorVxVy (x y : Nibble) (s : State) : Result :=
  .next (resultThenFlag s x (s.getV x ^^^ s.getV y) false)

/-- `ADD Vx, Vy` (R166): VF becomes the carry. -/
def execAddVxVy (x y : Nibble) (s : State) : Result :=
  .next (resultThenFlag s x (s.getV x + s.getV y) (carryOf (s.getV x) (s.getV y)))

/-- `SUB Vx, Vy` (R167). -/
def execSubVxVy (x y : Nibble) (s : State) : Result :=
  .next (flagThenResult s x (noBorrow (s.getV x) (s.getV y)) (s.getV x - s.getV y))

/-- `SHR Vx, Vy` (R168). The copy `V[x] <- b` that `vy_source` writes first is overwritten by the last write. -/
def execShrVxVy (x y : Nibble) (s : State) : Result :=
  .next (flagThenResult s x (bitOutLow (shiftSource s x y)) (shiftSource s x y >>> 1))

/-- `SUBN Vx, Vy` (R169). -/
def execSubnVxVy (x y : Nibble) (s : State) : Result :=
  .next (flagThenResult s x (noBorrow (s.getV y) (s.getV x)) (s.getV y - s.getV x))

/-- `SHL Vx, Vy` (R170), as `SHR`. -/
def execShlVxVy (x y : Nibble) (s : State) : Result :=
  .next (flagThenResult s x (bitOutHigh (shiftSource s x y)) (shiftSource s x y <<< 1))

/-- `RND Vx, kk` (R171): one byte is drawn, also when `kk` is 0. -/
def execRndVxKk (x : Nibble) (kk : Byte) (s : State) : Result :=
  .next ((drawByte s).2.setV x ((drawByte s).1 &&& kk))

end Sys2Proof.Machine
end

