-- ==== Sys2Proof/Machine/Cycle.lean ====
section
/-! DEFINITION. One `Cycle` (40_cycle_driver.md R120), with the state a fault leaves behind (R126). -/

namespace Sys2Proof.Machine

/-- How a cycle ends: with a next state, or with a fault and the state it leaves (R126), or with a refusal of the model's. -/
inductive CycleEnd where
  | next (s : State)
  | fault (r : Fault) (left : State)
  | refused (r : Refusal)
  deriving DecidableEq, Repr

/-- The outcome without the dead state a fault leaves (R11). -/
def CycleEnd.outcome : CycleEnd → Result
  | .next s => .next s
  | .fault r _ => .fault r
  | .refused r => .refused r

/-- Steps 6 and 7 on the advanced state `s` (R120): decode `w` and run its handler; a fault leaves `s` (R126). -/
def dispatchWord (w : Word) (s : State) : CycleEnd :=
  match decodeWord s.cfg.decodeStrict w with
  | .error r => .fault (rejectFault r) s
  | .ok i =>
    match exec i s with
    | .next t => .next t
    | .fault r => .fault r s
    | .refused r => .refused r

/-- `Cycle` (R120): countdown, gate, fetch, advance, decode, handler. A fetch fault leaves `PC` where it was (R123, R126). -/
def cycle (s : State) : CycleEnd :=
  if s.countDown.gated then .next s.countDown
  else
    match fetch s.countDown with
    | .error r => .fault r s.countDown
    | .ok w => dispatchWord w s.countDown.advancePc

/-- `s` with the word stored where the next cycle fetches, and the key-wait gate open, which that fetch needs (R122)
(notes/assumptions/24.md). -/
def placeWord (s : State) (w : Word) : State :=
  State.storeBytes { s with awp := false, awr := false } s.pc.toNat (bytesOfWord w)

end Sys2Proof.Machine
end

