-- ==== Sys2Proof/Machine/Step.lean ====
section
/-! DEFINITION. The step the host runs: one `Cycle` (40_cycle_driver.md R120), and the host's way to place an instruction. -/

namespace Sys2Proof.Machine

/-- One invocation of `Cycle` (R120, R253). -/
def step (s : State) : Host.Outcome State Fault Refusal := (cycle s).outcome

/-- `s` with the instruction of `decodeTableWord nbits w` where `step` fetches next. -/
def State.withFetchWord (s : State) (nbits w : Nat) : State := placeWord s (tableWord nbits w)

end Sys2Proof.Machine
end

