-- ==== Sys2Proof/Machine/HostMoves.lean ====
section
/-! DEFINITION. What the host does and sees between cycles (60_exceptions.md R253, R254; 70_reset_and_hazards.md R281, R282). -/

namespace Sys2Proof.Machine

/-- The host's writing moves (R254). There is no other (D24). -/
inductive HostMove where
  /-- `SetKey(k, v)`. -/
  | setKey (k : Nibble) (v : Bool)
  /-- A key went down. -/
  | keyDownEdge
  /-- A key went up. -/
  | keyUpEdge
  /-- After presenting the framebuffer. -/
  | clearRedraw
  deriving DecidableEq, Repr

/-- The effect of a host move (R254). -/
def hostMove : HostMove → State → State
  | .setKey k v, s => { s with key := s.key.set k.toNat v k.isLt }
  | .keyDownEdge, s => { s with awp := false }
  | .keyUpEdge, s => { s with awr := false }
  | .clearRedraw, s => { s with redraw := false }

/-- `should_beep`, the audio output: `ST > 0` (R28). -/
def State.shouldBeep (s : State) : Bool := 0 < s.st.toNat

/-- The three key-wait states (R33). -/
inductive KeyWait where
  | running
  | awaitingPress
  | awaitingRelease
  deriving DecidableEq, Repr

/-- The key-wait state, a view of the two flags; `none` is the unreachable combination (R33). -/
def State.keyWait (s : State) : Option KeyWait :=
  match s.awp, s.awr with
  | false, false => some .running
  | true, false => some .awaitingPress
  | false, true => some .awaitingRelease
  | true, true => none

/-- The ROM load, once after reset and before the first cycle (R281); an image over 3584 bytes is refused (R282, D19). -/
def loadRom (image : List Byte) (s : State) : Result :=
  if image.length ≤ 4096 - programBase.toNat then
    .next { s.storeBytes programBase.toNat image with pc := programBase }
  else .refused (.imageTooLong image.length)

end Sys2Proof.Machine
end

