-- ==== Sys2Proof/Machine/Run.lean ====
section
/-! DEFINITION. Runs: cycles interleaved with host moves (40_cycle_driver.md R130). -/

namespace Sys2Proof.Machine

/-- What can happen at a cycle boundary (R130). -/
inductive Event where
  | cycle
  | move (m : HostMove)
  deriving DecidableEq, Repr

/-- One event. -/
def runEvent : Event → State → Result
  | .cycle, s => step s
  | .move m, s => .next (hostMove m s)

/-- A schedule of events, which ends at the first fault: no step is defined from a faulted machine (R130, R248). -/
def runEvents : List Event → State → Result
  | [], s => .next s
  | e :: es, s =>
    match runEvent e s with
    | .next t => runEvents es t
    | .fault r => .fault r
    | .refused r => .refused r

end Sys2Proof.Machine
end

