-- ==== Sys2Proof/Safety.lean ====
section
/-! DEFINITION. What claims call a good state, a finished program and a safe run. -/

namespace Sys2Proof.Machine

/-- The invariant (10_state.md R39): memory in canonical form (the model's own clause), and not both key-wait flags set. The widths of R39, `SP` in
0..16 and `FB` cells in 0..1 hold by the fields' types. -/
def StateInv (s : State) : Prop := Memory.wf s.cfg s.mem ∧ ¬ (s.awp = true ∧ s.awr = true)

/-- A finished program (R129): `PC` holds a `JP` to itself and no key wait is pending. -/
def Finished (s : State) : Prop :=
  ∃ nnn : Addr12, s.pc = zext16 nnn ∧ s.gated = false ∧
    wordOfBytes (memRead s s.pc.toNat) (memRead s (s.pc.toNat + 1)) = encode (.jp nnn)

/-- A run that ends without a fault (R129, R248). -/
def SafeRun (es : List Event) (s : State) : Prop := ∃ t, runEvents es s = .next t

/-- The cycle at `s` passes the gate, fetches and decodes `i` (R120, R125). -/
def Executes (s : State) (i : Instr) : Prop :=
  s.gated = false ∧ ∃ w, fetch s.countDown = .ok w ∧ decodeWord s.cfg.decodeStrict w = .ok i

/-- The address fault of a data span of `len` bytes at `I`, if it has one (R243). -/
def dataSpanFault (s : State) (len : Nat) : Option Fault :=
  if s.cfg.oobPolicy = .fault ∧ 1 ≤ len ∧ 4095 < s.i.toNat + len - 1 then
    some (.addressFault (s.i.toNat + len - 1))
  else none

/-- The key-index fault of `V[x]`, if it has one (R244). -/
def keyIndexFaultOf (s : State) (x : Nibble) : Option Fault :=
  if s.cfg.keyIndexPolicy = .fault ∧ 15 < (s.getV x).toNat then some (.keyIndexFault (s.getV x)) else none

/-- The one fault an instruction's handler can raise, if it does: the table of R240, R242 to R244 and R247. -/
def handlerFault (s : State) : Instr → Option Fault
  | .ret dc => if s.sp.val = 0 then some (.internalError (encode (.ret dc))) else none
  | .call nnn => if s.sp.val = 16 then some (.internalError (encode (.call nnn))) else none
  | .drw _ _ n => dataSpanFault s n.toNat
  | .ldBVx _ => dataSpanFault s 3
  | .ldMemVx x => dataSpanFault s (x.toNat + 1)
  | .ldVxMem x => dataSpanFault s (x.toNat + 1)
  | .skpVx x => keyIndexFaultOf s x
  | .sknpVx x => keyIndexFaultOf s x
  | .cls _ => none
  | .jp _ => none
  | .seVxKk _ _ => none
  | .sneVxKk _ _ => none
  | .seVxVy _ _ _ => none
  | .ldVxKk _ _ => none
  | .addVxKk _ _ => none
  | .ldVxVy _ _ => none
  | .orVxVy _ _ => none
  | .andVxVy _ _ => none
  | .xorVxVy _ _ => none
  | .addVxVy _ _ => none
  | .subVxVy _ _ => none
  | .shrVxVy _ _ => none
  | .subnVxVy _ _ => none
  | .shlVxVy _ _ => none
  | .sneVxVy _ _ _ => none
  | .ldI _ => none
  | .jpV0 _ => none
  | .rndVxKk _ _ => none
  | .ldVxDt _ => none
  | .ldVxK _ => none
  | .ldDtVx _ => none
  | .ldStVx _ => none
  | .addIVx _ => none
  | .ldFVx _ => none

/-- Whether the sprite `rows` drawn from column `x0` and row `y0` covers cell `p`: the wrapped sprite mask of R212, in closed
form, with `p` = `r*64 + c` (R29). -/
def wrappedMask (x0 y0 : Nat) (rows : List Byte) (p : Nat) : Bool :=
  (p % 64 + (64 - x0)) % 64 < 8 &&
    spriteBit (rows[(p / 64 + (32 - y0)) % 32]?.getD 0) ((p % 64 + (64 - x0)) % 64)

end Sys2Proof.Machine
end

