-- ==== Sys2Proof/Certificates/Slice0/Obligations.lean ====
section
/-! DEFINITION. The statements for the provers. They come from the numbered rules of spec/.

How a FRAME is written: `t = { s with v := t.v }` says that every field but the register file is as it was: the parameters,
`I`, `PC`, the stack, `SP`, the timers, the framebuffer, the flags, the keypad and every byte of memory. An instruction that
stores says in addition, address by address, which bytes it stores and that every other address reads as before.

"The spec's own decision D<n>" marks a clause that rests on a decision of 92_eei_decisions.md and not on the source; such a
statement has basis 'derived'. -/

open Sys2Proof Sys2Proof.Machine

/-! ### Encoding (30_encoding.md) -/

/-- Decoding an encoded instruction gives it back, for every well-formed instruction of the whole set and every operand
value. The don't-care bits and the keys of families 0 and E follow the spec's own decisions D7 and D8
(notes/assumptions/6.md, 14.md). -/
def Obligations.DecodeOfEncodeGivesInstruction : Prop :=
  ∀ (strict : Bool) (i : Instr), i.wellFormed strict = true → decodeWord strict (encode i) = .ok i

/-- Encoding a decoded instruction gives the word back, so that no bit of a legal word is dropped; and what decodes is
well-formed. Decisions D7 and D8 as above (notes/assumptions/6.md, 14.md, 21.md). -/
def Obligations.EncodeOfDecodeGivesWord : Prop :=
  ∀ (strict : Bool) (w : Word) (i : Instr), decodeWord strict w = .ok i → encode i = w ∧ i.wellFormed strict = true

/-- The illegal words and the fault each raises (R97, R241, R242), under both values of DECODE_STRICT. The strict clauses
are the spec's own decision D7, the whole-byte key of families 0 and E is D8 (notes/assumptions/6.md, 14.md). -/
def Obligations.IllegalWordsAreExactlyTheUnmatchedCodes : Prop :=
  ∀ (strict : Bool) (w : Word) (r : WordReject), decodeWord strict w = .error r ↔
    (r = .invalidOpcode w ∧
      ((famField w = 0x0 ∧ kkField w ≠ 0xE0 ∧ kkField w ≠ 0xEE) ∨
       (famField w = 0xE ∧ kkField w ≠ 0x9E ∧ kkField w ≠ 0xA1) ∨
       (famField w = 0xF ∧ kkField w ≠ 0x07 ∧ kkField w ≠ 0x0A ∧ kkField w ≠ 0x15 ∧ kkField w ≠ 0x18 ∧
         kkField w ≠ 0x1E ∧ kkField w ≠ 0x29 ∧ kkField w ≠ 0x33 ∧ kkField w ≠ 0x55 ∧ kkField w ≠ 0x65) ∨
       (strict = true ∧ famField w = 0x0 ∧ (kkField w = 0xE0 ∨ kkField w = 0xEE) ∧ xField w ≠ 0) ∨
       (strict = true ∧ (famField w = 0x5 ∨ famField w = 0x9) ∧ nField w ≠ 0))) ∨
    (r = .internalError w ∧ famField w = 0x8 ∧
      (nField w = 0x8 ∨ nField w = 0x9 ∨ nField w = 0xA ∨ nField w = 0xB ∨ nField w = 0xC ∨ nField w = 0xD ∨
        nField w = 0xF))

/-- The opcode map of R100: a word selects a row iff it decodes to an instruction of that row. The masks of the
don't-care bits are the spec's own decision D7 (notes/assumptions/6.md). -/
def Obligations.DecoderFollowsTheOpcodeMap : Prop :=
  ∀ (strict : Bool) (w : Word) (j : Instr),
    w &&& j.row.maskOf strict = j.row.pattern ↔ ∃ i, decodeWord strict w = .ok i ∧ i.row = j.row

/-- A few words written out from the encodings of R92 and R100. -/
def Obligations.SampleWordsDecodeAsTheSpecSays : Prop :=
  decode false [0x00, 0xEE] = .ok (.ret 0, []) ∧ decode false [0x23, 0x45] = .ok (.call 0x345, []) ∧
  decode false [0x3A, 0x2F] = .ok (.seVxKk 0xA 0x2F, []) ∧ decode false [0x8A, 0xB7] = .ok (.subnVxVy 0xA 0xB, []) ∧
  decode false [0xA2, 0xF0] = .ok (.ldI 0x2F0, []) ∧ decode false [0xD1, 0x25] = .ok (.drw 1 2 5, []) ∧
  decode false [0xE5, 0xA1] = .ok (.sknpVx 5, []) ∧ decode false [0xF2, 0x65] = .ok (.ldVxMem 2, []) ∧
  decode false [0x8A, 0xB8] = .error (.word (.internalError 0x8AB8)) ∧
  decode false [0x00, 0x00] = .error (.word (.invalidOpcode 0x0000))

/-! ### The cycle (40_cycle_driver.md) -/

/-- A step runs the decoded instruction: with the gate open and the two bytes at `PC` inside the space, the step is the
instruction's meaning on the state whose timers are counted down and whose `PC` is advanced by 2 (R120, R124). -/
def Obligations.StepRunsTheDecodedInstruction : Prop :=
  ∀ (s : State) (i : Instr), s.awp = false → s.awr = false → ¬ spanFaults s.cfg s.pc.toNat 2 →
    decode s.cfg.decodeStrict (s.loadBytes s.pc.toNat 2) = .ok (i, []) →
    step s = exec i { s with dt := countDownTimer s.dt, st := countDownTimer s.st, pc := s.pc + 2 }

/-- The key-wait gate (R122). -/
def Obligations.KeyWaitGateOnlyCountsTimersDown : Prop :=
  ∀ s : State, s.awp = true ∨ s.awr = true →
    ∃ t, step s = .next t ∧ t.dt.toNat = s.dt.toNat - 1 ∧ t.st.toNat = s.st.toNat - 1 ∧
      t = { s with dt := t.dt, st := t.st }

/-- The timers' countdown in every cycle, executing, gated or faulting (R121): by 1, stopping at 0, unless the cycle's
instruction loads the timer; and `LD Vx, DT` reads the timer after the countdown. -/
def Obligations.TimersCountDownOncePerCycle : Prop :=
  (∀ s t, cycle s = .next t →
    ((∀ x, ¬ Executes s (.ldDtVx x)) → t.dt.toNat = s.dt.toNat - 1) ∧
    ((∀ x, ¬ Executes s (.ldStVx x)) → t.st.toNat = s.st.toNat - 1) ∧
    (∀ x, Executes s (.ldDtVx x) → t.dt = s.getV x) ∧
    (∀ x, Executes s (.ldStVx x) → t.st = s.getV x) ∧
    (∀ x, Executes s (.ldVxDt x) → (t.getV x).toNat = s.dt.toNat - 1)) ∧
  (∀ s r u, cycle s = .fault r u → u.dt.toNat = s.dt.toNat - 1 ∧ u.st.toNat = s.st.toNat - 1)

/-- The state a fault leaves behind (R126): timers counted down; `PC` kept if the fetch raised and advanced by 2 if decode
or a handler did; nothing else changed. That no write precedes a raise is the spec's own decision D4
(notes/assumptions/13.md). -/
def Obligations.FaultLeavesOnlyTimersAndAdvancedPc : Prop :=
  ∀ s r u, cycle s = .fault r u →
    u = { s with dt := countDownTimer s.dt, st := countDownTimer s.st,
                 pc := if spanFaults s.cfg s.pc.toNat 2 then s.pc else s.pc + 2 }

/-- A fetch that reaches past address 4095 faults under OOB_POLICY = fault, the spec's own decision D3
(notes/assumptions/3.md), with `PC` not advanced (R70, R123). -/
def Obligations.FetchPastTheEndFaults : Prop :=
  ∀ s : State, s.awp = false → s.awr = false → s.cfg.oobPolicy = .fault → 4094 < s.pc.toNat →
    step s = .fault (.addressFault (s.pc.toNat + 1)) ∧
      ∃ u, cycle s = .fault (.addressFault (s.pc.toNat + 1)) u ∧ u.pc = s.pc

/-- Which faults a handler raises (R240, R242 to R244), and that it completes in every other case. The address and key-index
faults are the spec's own decisions D3 and D5 (notes/assumptions/3.md, 4.md). -/
def Obligations.HandlersFaultExactlyAsListed : Prop :=
  ∀ (i : Instr) (s : State),
    (∀ r, exec i s = .fault r ↔ handlerFault s i = some r) ∧
    (handlerFault s i = none → ∃ t, exec i s = .next t)

/-- A step's faults and their order (R247): gate, fetch, decode, handler. A rejected word raises the fault that R241 and
R242 name for it, with the word. Decisions D3, D5 and D8 as above, and the kind of family 8's fault as conflict C2 resolves
it (notes/assumptions/3.md, 4.md, 14.md, 15.md). -/
def Obligations.StepFaultsExactlyInTheListedOrder : Prop :=
  ∀ (s : State) (r : Fault), step s = .fault r ↔
    s.awp = false ∧ s.awr = false ∧
      ((spanFaults s.cfg s.pc.toNat 2 ∧ r = .addressFault (s.pc.toNat + 1)) ∨
       (¬ spanFaults s.cfg s.pc.toNat 2 ∧
        ((∃ w, decodeWord s.cfg.decodeStrict
              (wordOfBytes (memRead s s.pc.toNat) (memRead s (s.pc.toNat + 1))) = .error (.invalidOpcode w) ∧
            r = .invalidOpcode w) ∨
         (∃ w, decodeWord s.cfg.decodeStrict
              (wordOfBytes (memRead s s.pc.toNat) (memRead s (s.pc.toNat + 1))) = .error (.internalError w) ∧
            r = .internalError w) ∨
         ∃ i, decodeWord s.cfg.decodeStrict
              (wordOfBytes (memRead s s.pc.toNat) (memRead s (s.pc.toNat + 1))) = .ok i ∧
            handlerFault { s with dt := countDownTimer s.dt, st := countDownTimer s.st, pc := s.pc + 2 } i = some r)))

/-- A step has one of two outcomes, a next state or a fault (R11): the model refuses no step. -/
def Obligations.StepNeverRefuses : Prop := ∀ (s : State) (r : Refusal), step s ≠ .refused r

/-! ### Invariants and whole-machine rules -/

/-- Every step keeps the invariant (R33, R39): memory in the model's canonical form (notes/assumptions/22.md), not both
key-wait flags set. -/
def Obligations.StepKeepsInvariant : Prop := ∀ s t, StateInv s → step s = .next t → StateInv t

/-- Reset has the invariant (R33, R39, R41), whose memory clause is the model's own (notes/assumptions/22.md), with any
parameters. -/
def Obligations.ResetHasInvariant : Prop := ∀ c : Config, StateInv (State.resetWith c)

/-- Every event of a schedule, a cycle or a host move, keeps the invariant (R33, R39, R130, R254): memory in the model's
canonical form (notes/assumptions/22.md), not both key-wait flags set. The host's moves are the spec's own decisions D17 and
D18 (notes/assumptions/16.md). -/
def Obligations.EveryEventKeepsInvariant : Prop := ∀ e s t, StateInv s → runEvent e s = .next t → StateInv t

/-- The launch state of a run, reset with the image loaded (R281), has the invariant (R33, R39), whose memory clause is the
model's own (notes/assumptions/22.md), with any parameters and image. -/
def Obligations.LaunchHasInvariant : Prop :=
  ∀ (c : Config) (image : List Byte) (s : State), loadRom image (State.resetWith c) = .next s → StateInv s

/-- Every schedule of cycles and host moves from the launch state of any image ends in a state with the invariant (R33, R39,
R130, R254, R281): memory in the model's canonical form (notes/assumptions/22.md), not both key-wait flags set. The
schedules are the spec's own decision D17 and the moves D18 (notes/assumptions/16.md). -/
def Obligations.EveryScheduleFromLaunchKeepsInvariant : Prop :=
  ∀ (c : Config) (image : List Byte) (s t : State) (es : List Event),
    loadRom image (State.resetWith c) = .next s → runEvents es s = .next t → StateInv t

/-- The core never changes the parameters or the keypad levels (R31, R38; that parameters stand in the state is the model's
choice, notes/assumptions/1.md). -/
def Obligations.StepChangesNoParameterAndNoKey : Prop :=
  ∀ s t, step s = .next t → t.cfg = s.cfg ∧ t.key = s.key

/-- `SP` changes only by the +1 of CALL and the -1 of RET, and only CALL writes a stack slot (R24, R25, R280). -/
def Obligations.StackChangesOnlyByCallAndRet : Prop :=
  ∀ s t, step s = .next t →
    (t.sp = s.sp ∧ t.stack = s.stack) ∨
    (∃ nnn, Executes s (.call nnn) ∧ t.sp.val = s.sp.val + 1) ∨
    (∃ dc, Executes s (.ret dc) ∧ t.sp.val + 1 = s.sp.val ∧ t.stack = s.stack)

/-- Only CLS and DRW write the framebuffer or set REDRAW, each of them sets it unconditionally, also when no cell changes
value, and no step clears it (R29, R30). -/
def Obligations.DisplayChangesOnlyByClsAndDrw : Prop :=
  ∀ s t, step s = .next t →
    ((t.fb = s.fb ∧ t.redraw = s.redraw) ∨ (∃ dc, Executes s (.cls dc)) ∨ ∃ x y n, Executes s (.drw x y n)) ∧
    (∀ dc, Executes s (.cls dc) → t.redraw = true) ∧
    (∀ x y n, Executes s (.drw x y n) → t.redraw = true) ∧
    (s.redraw = true → t.redraw = true)

/-- The core never clears a key-wait flag, and only `LD Vx, K` sets one (R32). -/
def Obligations.KeyWaitFlagsAreOnlySetByLoadKey : Prop :=
  ∀ s t, step s = .next t →
    (t.awp = s.awp ∧ t.awr = s.awr) ∨
    (∃ x, Executes s (.ldVxK x) ∧ ((t.awp = true ∧ t.awr = s.awr) ∨ (t.awp = s.awp ∧ t.awr = true)))

/-- Only `LD B` and `LD [I]` write memory (R60, R65). -/
def Obligations.MemoryChangesOnlyByLoadBAndStoreRegisters : Prop :=
  ∀ s t, step s = .next t →
    (∀ a, t.byteAt a = s.byteAt a) ∨ (∃ x, Executes s (.ldBVx x)) ∨ (∃ x, Executes s (.ldMemVx x))

/-- VF changes only by the flag writers R21 lists and by the instructions that name VF as destination. -/
def Obligations.FlagRegisterChangesOnlyByListedWriters : Prop :=
  ∀ s t i, step s = .next t → Executes s i → t.getV 15 ≠ s.getV 15 →
    (∃ x y, i = .orVxVy x y ∨ i = .andVxVy x y ∨ i = .xorVxVy x y ∨ i = .addVxVy x y ∨ i = .subVxVy x y ∨
      i = .shrVxVy x y ∨ i = .subnVxVy x y ∨ i = .shlVxVy x y ∨ i = .ldVxVy 15 y) ∨
    (∃ x y n, i = .drw x y n) ∨
    (∃ kk, i = .ldVxKk 15 kk ∨ i = .addVxKk 15 kk ∨ i = .rndVxKk 15 kk) ∨
    i = .ldVxDt 15 ∨ i = .ldVxK 15 ∨ i = .ldVxMem 15

/-- `I` changes only by the five instructions R22 names. -/
def Obligations.IndexChangesOnlyByListedWriters : Prop :=
  ∀ s t, step s = .next t → t.i ≠ s.i →
    (∃ nnn, Executes s (.ldI nnn)) ∨
    ∃ x, Executes s (.addIVx x) ∨ Executes s (.ldFVx x) ∨ Executes s (.ldMemVx x) ∨ Executes s (.ldVxMem x)

/-! ### Control transfer (41_flow_control.md). Inside a handler `PC` is the instruction's address + 2. -/

/-- RET (R140): the popped address; at depth 0 InternalError, which leaves the state the handler was entered with. The
don't-care bits follow the spec's own decision D7 (notes/assumptions/6.md). -/
def Obligations.RetPopsOrFaults : Prop :=
  ∀ (dc : Nibble) (s : State),
    (∀ w, famField w = 0x0 → kkField w = 0xEE → xField w = dc → decodeWord false w = .ok (.ret dc)) ∧
    (0 < s.sp.val → ∃ t, exec (.ret dc) s = .next t ∧ t.sp.val = s.sp.val - 1 ∧
      s.stack[s.sp.val - 1]? = some t.pc ∧ t = { s with sp := t.sp, pc := t.pc }) ∧
    (s.sp.val = 0 → exec (.ret dc) s = .fault (.internalError (encode (.ret dc))) ∧
      ((Instr.ret dc).wellFormed s.cfg.decodeStrict = true →
        dispatchWord (encode (.ret dc)) s = .fault (.internalError (encode (.ret dc))) s))

/-- JP (R141): exactly nnn. -/
def Obligations.JumpLoadsTarget : Prop :=
  ∀ (nnn : Addr12) (s : State),
    (∀ strict w, famField w = 0x1 → nnnField w = nnn → decodeWord strict w = .ok (.jp nnn)) ∧
    ∃ t, exec (.jp nnn) s = .next t ∧ t.pc.toNat = nnn.toNat ∧ t = { s with pc := t.pc }

/-- CALL (R142): pushes the advanced `PC`; at depth 16 InternalError, which leaves the state the handler was entered
with. -/
def Obligations.CallPushesOrFaults : Prop :=
  ∀ (nnn : Addr12) (s : State),
    (∀ strict w, famField w = 0x2 → nnnField w = nnn → decodeWord strict w = .ok (.call nnn)) ∧
    (s.sp.val < 16 → ∃ t, exec (.call nnn) s = .next t ∧ t.sp.val = s.sp.val + 1 ∧ t.pc.toNat = nnn.toNat ∧
      t.stack[s.sp.val]? = some s.pc ∧ (∀ k, k ≠ s.sp.val → t.stack[k]? = s.stack[k]?) ∧
      t = { s with sp := t.sp, pc := t.pc, stack := t.stack }) ∧
    (s.sp.val = 16 → exec (.call nnn) s = .fault (.internalError (encode (.call nnn))) ∧
      dispatchWord (encode (.call nnn)) s = .fault (.internalError (encode (.call nnn))) s)

/-- A RET after a CALL resumes at the return address with `SP` as before the CALL (source property 5), whatever ran between
left `SP` and the stack as the CALL did. -/
def Obligations.RetAfterCallResumesAtReturnAddress : Prop :=
  ∀ (nnn : Addr12) (dc : Nibble) (s t u : State), exec (.call nnn) s = .next t → u.sp = t.sp → u.stack = t.stack →
    ∃ w, exec (.ret dc) u = .next w ∧ w.pc = s.pc ∧ w.sp = s.sp

/-- SE Vx, kk and SNE Vx, kk (R143, R144): `PC` + 2 more when the comparison holds, else `PC` as it was. -/
def Obligations.ImmediateSkipsCompare : Prop :=
  ∀ (x : Nibble) (kk : Byte) (s : State),
    (∀ strict w, famField w = 0x3 → xField w = x → kkField w = kk → decodeWord strict w = .ok (.seVxKk x kk)) ∧
    (∃ t, exec (.seVxKk x kk) s = .next t ∧ t = { s with pc := t.pc } ∧
      t.pc.toNat = if s.getV x = kk then (s.pc.toNat + 2) % 65536 else s.pc.toNat) ∧
    (∀ strict w, famField w = 0x4 → xField w = x → kkField w = kk → decodeWord strict w = .ok (.sneVxKk x kk)) ∧
    (∃ t, exec (.sneVxKk x kk) s = .next t ∧ t = { s with pc := t.pc } ∧
      t.pc.toNat = if s.getV x ≠ kk then (s.pc.toNat + 2) % 65536 else s.pc.toNat)

/-- SE Vx, Vy and SNE Vx, Vy (R145, R146). That the low nibble of their words is a don't-care, and must be 0 under
DECODE_STRICT, is the spec's own decision D7 (notes/assumptions/6.md). -/
def Obligations.RegisterSkipsCompare : Prop :=
  ∀ (x y dc : Nibble) (s : State),
    (∀ w, famField w = 0x5 → xField w = x → yField w = y → nField w = dc →
      decodeWord false w = .ok (.seVxVy x y dc) ∧ (dc ≠ 0 → decodeWord true w = .error (.invalidOpcode w))) ∧
    (∃ t, exec (.seVxVy x y dc) s = .next t ∧ t = { s with pc := t.pc } ∧
      t.pc.toNat = if s.getV x = s.getV y then (s.pc.toNat + 2) % 65536 else s.pc.toNat) ∧
    (∀ w, famField w = 0x9 → xField w = x → yField w = y → nField w = dc →
      decodeWord false w = .ok (.sneVxVy x y dc) ∧ (dc ≠ 0 → decodeWord true w = .error (.invalidOpcode w))) ∧
    (∃ t, exec (.sneVxVy x y dc) s = .next t ∧ t = { s with pc := t.pc } ∧
      t.pc.toNat = if s.getV x ≠ s.getV y then (s.pc.toNat + 2) % 65536 else s.pc.toNat)

/-- JP V0 (R147): `V[0]` + nnn, at most 0x10FE. -/
def Obligations.JumpV0AddsOffset : Prop :=
  ∀ (nnn : Addr12) (s : State),
    ∃ t, exec (.jpV0 nnn) s = .next t ∧ t.pc.toNat = (s.getV 0).toNat + nnn.toNat ∧ t.pc.toNat ≤ 0x10FE ∧
      t = { s with pc := t.pc }

/-! ### Loads, arithmetic, logic, shifts, RND (42_load_and_alu.md). What every register reads afterwards, VF included. -/

/-- LD Vx, kk; ADD Vx, kk; LD Vx, Vy (R160 to R162): no flag. -/
def Obligations.PlainLoadsAndAddImmediate : Prop :=
  ∀ (x y : Nibble) (kk : Byte) (s : State),
    (∀ strict w, famField w = 0x6 → xField w = x → kkField w = kk → decodeWord strict w = .ok (.ldVxKk x kk)) ∧
    (∃ t, exec (.ldVxKk x kk) s = .next t ∧ t = { s with v := t.v } ∧
      ∀ z, t.getV z = if z = x then kk else s.getV z) ∧
    (∀ strict w, famField w = 0x7 → xField w = x → kkField w = kk → decodeWord strict w = .ok (.addVxKk x kk)) ∧
    (∃ t, exec (.addVxKk x kk) s = .next t ∧ t = { s with v := t.v } ∧
      ∀ z, (t.getV z).toNat = if z = x then ((s.getV x).toNat + kk.toNat) % 256 else (s.getV z).toNat) ∧
    (∀ strict w, famField w = 0x8 → nField w = 0x0 → xField w = x → yField w = y →
      decodeWord strict w = .ok (.ldVxVy x y)) ∧
    (∃ t, exec (.ldVxVy x y) s = .next t ∧ t = { s with v := t.v } ∧
      ∀ z, t.getV z = if z = x then s.getV y else s.getV z)

/-- OR, AND, XOR (R163 to R165): bit by bit, VF becomes 0. That VF wins when `x` = F is the spec's own decision D9
(notes/assumptions/12.md). -/
def Obligations.LogicOperationsClearFlag : Prop :=
  ∀ (x y : Nibble) (s : State),
    (∃ t, exec (.orVxVy x y) s = .next t ∧ t = { s with v := t.v } ∧ t.getV 15 = 0 ∧
      ∀ z, z ≠ 15 → ∀ k, (t.getV z).getLsbD k =
        if z = x then ((s.getV x).getLsbD k || (s.getV y).getLsbD k) else (s.getV z).getLsbD k) ∧
    (∃ t, exec (.andVxVy x y) s = .next t ∧ t = { s with v := t.v } ∧ t.getV 15 = 0 ∧
      ∀ z, z ≠ 15 → ∀ k, (t.getV z).getLsbD k =
        if z = x then ((s.getV x).getLsbD k && (s.getV y).getLsbD k) else (s.getV z).getLsbD k) ∧
    (∃ t, exec (.xorVxVy x y) s = .next t ∧ t = { s with v := t.v } ∧ t.getV 15 = 0 ∧
      ∀ z, z ≠ 15 → ∀ k, (t.getV z).getLsbD k =
        if z = x then ((s.getV x).getLsbD k ^^ (s.getV y).getLsbD k) else (s.getV z).getLsbD k)

/-- ADD Vx, Vy (R166, source property 1): sum mod 256, VF the carry; with `x` = F the carry stands, the spec's own
decision D9 (notes/assumptions/12.md). -/
def Obligations.AddRegistersSetsCarry : Prop :=
  ∀ (x y : Nibble) (s : State), ∃ t, exec (.addVxVy x y) s = .next t ∧ t = { s with v := t.v } ∧
    ∀ z, (t.getV z).toNat =
      if z = 15 then (if (s.getV x).toNat + (s.getV y).toNat > 255 then 1 else 0)
      else if z = x then ((s.getV x).toNat + (s.getV y).toNat) % 256
      else (s.getV z).toNat

/-- SUB and SUBN (R167, R169, source property 2): VF is 1 iff no borrow; with `x` = F the difference stands, the spec's own
decision D9 (notes/assumptions/12.md). -/
def Obligations.SubtractionsSetNoBorrow : Prop :=
  ∀ (x y : Nibble) (s : State),
    (∃ t, exec (.subVxVy x y) s = .next t ∧ t = { s with v := t.v } ∧
      ∀ z, ((t.getV z).toNat : Int) =
        if z = x then ((s.getV x).toNat - (s.getV y).toNat : Int) % 256
        else if z = 15 then (if (s.getV x).toNat ≥ (s.getV y).toNat then 1 else 0)
        else (s.getV z).toNat) ∧
    (∃ t, exec (.subnVxVy x y) s = .next t ∧ t = { s with v := t.v } ∧
      ∀ z, ((t.getV z).toNat : Int) =
        if z = x then ((s.getV y).toNat - (s.getV x).toNat : Int) % 256
        else if z = 15 then (if (s.getV y).toNat ≥ (s.getV x).toNat then 1 else 0)
        else (s.getV z).toNat)

/-- SHR and SHL (R168, R170) under both values of SHIFT_MODE: VF is the bit shifted out; with `x` = F the shifted value
stands. The in-place mode and the `x` = F case are the spec's own decisions D6 and D9 (notes/assumptions/5.md, 12.md). -/
def Obligations.ShiftsReportTheBitShiftedOut : Prop :=
  ∀ (x y : Nibble) (s : State) (b : Byte),
    b = (if s.cfg.shiftMode = .vySource then s.getV y else s.getV x) →
    (∃ t, exec (.shrVxVy x y) s = .next t ∧ t = { s with v := t.v } ∧
      ∀ z, (t.getV z).toNat =
        if z = x then b.toNat / 2 else if z = 15 then b.toNat % 2 else (s.getV z).toNat) ∧
    (∃ t, exec (.shlVxVy x y) s = .next t ∧ t = { s with v := t.v } ∧
      ∀ z, (t.getV z).toNat =
        if z = x then b.toNat * 2 % 256 else if z = 15 then b.toNat / 128 else (s.getV z).toNat)

/-- RND (R171): one byte is drawn and masked; nothing is claimed of the byte, a free value (notes/assumptions/7.md). -/
def Obligations.RandomDrawsOneByteAndMasks : Prop :=
  ∀ (x : Nibble) (kk : Byte) (s : State),
    (∀ strict w, famField w = 0xC → xField w = x → kkField w = kk → decodeWord strict w = .ok (.rndVxKk x kk)) ∧
    ∃ t r, exec (.rndVxKk x kk) s = .next t ∧ r = Config.freeByte s.draws ∧
      t.draws = s.draws + 1 ∧ t = { s with v := t.v, draws := t.draws } ∧
      (∀ z, z ≠ x → t.getV z = s.getV z) ∧ (∀ k, (t.getV x).getLsbD k = (r.getLsbD k && kk.getLsbD k)) ∧
      (kk = 0 → t.getV x = 0)

/-! ### Index register and memory (43_index_and_memory.md) -/

/-- LD I and LD F (R190, R192): no flag, no memory. -/
def Obligations.IndexLoads : Prop :=
  ∀ (nnn : Addr12) (x : Nibble) (s : State),
    (∀ strict w, famField w = 0xA → nnnField w = nnn → decodeWord strict w = .ok (.ldI nnn)) ∧
    (∃ t, exec (.ldI nnn) s = .next t ∧ t.i.toNat = nnn.toNat ∧ t = { s with i := t.i }) ∧
    (∀ strict w, famField w = 0xF → kkField w = 0x29 → xField w = x → decodeWord strict w = .ok (.ldFVx x)) ∧
    (∃ t, exec (.ldFVx x) s = .next t ∧ t.i.toNat = s.cfg.fontBase.val + 5 * (s.getV x).toNat ∧
      t = { s with i := t.i })

/-- ADD I (R191): no flag, no memory. The wrap of `I` modulo 65536 is the spec's own decision D13
(notes/assumptions/11.md). -/
def Obligations.AddIndexWrapsAtSixteenBits : Prop :=
  ∀ (x : Nibble) (s : State),
    ∃ t, exec (.addIVx x) s = .next t ∧ t.i.toNat = (s.i.toNat + (s.getV x).toNat) % 65536 ∧ t = { s with i := t.i }

/-- LD B (R193): three decimal digits at `I`, `I`+1, `I`+2 and no other byte; an AddressFault for a span past 4095. The
bounds are the spec's own decision D3 (notes/assumptions/3.md). -/
def Obligations.StoreDecimalDigits : Prop :=
  ∀ (x : Nibble) (s : State),
    (¬ spanFaults s.cfg s.i.toNat 3 → ∃ t, exec (.ldBVx x) s = .next t ∧ t = { s with mem := t.mem } ∧
      (t.byteAt (effAddr s.cfg (s.i.toNat + 0))).toNat = (s.getV x).toNat / 100 ∧
      (t.byteAt (effAddr s.cfg (s.i.toNat + 1))).toNat = (s.getV x).toNat / 10 % 10 ∧
      (t.byteAt (effAddr s.cfg (s.i.toNat + 2))).toNat = (s.getV x).toNat % 10 ∧
      ∀ a, (∀ k < 3, a ≠ effAddr s.cfg (s.i.toNat + k)) → t.byteAt a = s.byteAt a) ∧
    (spanFaults s.cfg s.i.toNat 3 → exec (.ldBVx x) s = .fault (.addressFault (s.i.toNat + 2)))

/-- LD [I], Vx (R194): registers 0..x to `I`..`I`+x and no other byte; `I` advances by x + 1. The bounds and the wrap of
`I` are the spec's own decisions D3 and D13 (notes/assumptions/3.md, 11.md). -/
def Obligations.StoreRegisters : Prop :=
  ∀ (x : Nibble) (s : State),
    (¬ spanFaults s.cfg s.i.toNat (x.toNat + 1) → ∃ t, exec (.ldMemVx x) s = .next t ∧
      t = { s with mem := t.mem, i := t.i } ∧ t.i.toNat = (s.i.toNat + x.toNat + 1) % 65536 ∧
      (∀ z : Nibble, z.toNat ≤ x.toNat → t.byteAt (effAddr s.cfg (s.i.toNat + z.toNat)) = s.getV z) ∧
      ∀ a, (∀ k ≤ x.toNat, a ≠ effAddr s.cfg (s.i.toNat + k)) → t.byteAt a = s.byteAt a) ∧
    (spanFaults s.cfg s.i.toNat (x.toNat + 1) →
      exec (.ldMemVx x) s = .fault (.addressFault (s.i.toNat + x.toNat)))

/-- LD Vx, [I] (R195): bytes `I`..`I`+x to registers 0..x; `I` advances by x + 1. Decisions D3 and D13 as above
(notes/assumptions/3.md, 11.md). -/
def Obligations.LoadRegisters : Prop :=
  ∀ (x : Nibble) (s : State),
    (¬ spanFaults s.cfg s.i.toNat (x.toNat + 1) → ∃ t, exec (.ldVxMem x) s = .next t ∧
      t = { s with v := t.v, i := t.i } ∧ t.i.toNat = (s.i.toNat + x.toNat + 1) % 65536 ∧
      ∀ z : Nibble, t.getV z =
        if z.toNat ≤ x.toNat then s.byteAt (effAddr s.cfg (s.i.toNat + z.toNat)) else s.getV z) ∧
    (spanFaults s.cfg s.i.toNat (x.toNat + 1) →
      exec (.ldVxMem x) s = .fault (.addressFault (s.i.toNat + x.toNat)))

/-- Dump and reload (source property 7): after LD [I], Vx, reloading from the same base into any registers gives the dumped
ones back, and `I` advances alike. -/
def Obligations.StoreThenLoadRegistersRoundTrips : Prop :=
  ∀ (x : Nibble) (s t : State) (junk : Vector Byte 16), exec (.ldMemVx x) s = .next t →
    ∃ u, exec (.ldVxMem x) { t with i := s.i, v := junk } = .next u ∧ u.i = t.i ∧
      ∀ z : Nibble, z.toNat ≤ x.toNat → u.getV z = s.getV z

/-- Memory is read as last written (R66, R69): a stored span reads back, every other address reads as before, and the
canonical form is kept (the model's own clause, notes/assumptions/22.md). -/
def Obligations.StoredBytesReadBack : Prop :=
  ∀ (s : State) (addr : Nat) (bs : List Byte), bs.length ≤ 4096 → ¬ spanFaults s.cfg addr bs.length →
    (∀ (k : Nat) (b : Byte), bs[k]? = some b → memRead (s.storeBytes addr bs) (addr + k) = b) ∧
    (∀ a, (∀ k < bs.length, a ≠ effAddr s.cfg (addr + k)) → (s.storeBytes addr bs).byteAt a = s.byteAt a) ∧
    (Memory.wf s.cfg s.mem → Memory.wf s.cfg (s.storeBytes addr bs).mem)

/-! ### Display (44_display.md) -/

/-- CLS (R210, source property 9). The don't-care bits follow the spec's own decision D7 (notes/assumptions/6.md). -/
def Obligations.ClsClearsEveryCell : Prop :=
  ∀ (dc : Nibble) (s : State),
    (∀ w, famField w = 0x0 → kkField w = 0xE0 → xField w = dc → decodeWord false w = .ok (.cls dc)) ∧
    ∃ t, exec (.cls dc) s = .next t ∧ (∀ p < 2048, t.cell p = false) ∧ t.redraw = true ∧
    t = { s with fb := t.fb, redraw := t.redraw }

/-- DRW (R211, R212): every cell is XORed with the wrapped sprite mask, VF is 1 iff a lit cell is under it, REDRAW is set;
an AddressFault for rows past 4095. The bounds are the spec's own decision D3 (notes/assumptions/3.md); that the
coordinates are sampled before VF is written is R211's. -/
def Obligations.DrawXorsWrappedSprite : Prop :=
  ∀ (x y n : Nibble) (s : State) (mask : Nat → Bool),
    mask = wrappedMask ((s.getV x).toNat % 64) ((s.getV y).toNat % 32) (s.loadBytes s.i.toNat n.toNat) →
    (¬ spanFaults s.cfg s.i.toNat n.toNat → ∃ t, exec (.drw x y n) s = .next t ∧
      (∀ p < 2048, t.cell p = (s.cell p ^^ mask p)) ∧ t.redraw = true ∧
      (t.getV 15 = 1 ∨ t.getV 15 = 0) ∧ (t.getV 15 = 1 ↔ ∃ p < 2048, mask p = true ∧ s.cell p = true) ∧
      (∀ z, z ≠ 15 → t.getV z = s.getV z) ∧ t = { s with fb := t.fb, redraw := t.redraw, v := t.v }) ∧
    (spanFaults s.cfg s.i.toNat n.toNat →
      exec (.drw x y n) s = .fault (.addressFault (s.i.toNat + n.toNat - 1)))

/-- Drawing the same sprite at the same place twice restores every cell, and the second draw reports a collision iff the
sprite covers a cell that was 0 before the first (R212, source property 3). Between the draws only registers may change. -/
def Obligations.DrawingTwiceRestoresTheFramebuffer : Prop :=
  ∀ (x y n : Nibble) (s t u : State), exec (.drw x y n) s = .next t → u = { t with v := u.v } →
    u.getV x = s.getV x → u.getV y = s.getV y →
    ∃ w, exec (.drw x y n) u = .next w ∧ w.fb = s.fb ∧
      (w.getV 15 = 1 ↔ ∃ p < 2048,
        wrappedMask ((s.getV x).toNat % 64) ((s.getV y).toNat % 32) (s.loadBytes s.i.toNat n.toNat) p = true ∧
          s.cell p = false)

/-! ### Keypad and timers (45_keypad_and_timers.md) -/

/-- SKP and SKNP (R220, R221, R228): the skip on the level of key `V[x]`; above 15 the spec's own decision D5 applies
(notes/assumptions/4.md): KeyIndexFault, or the index modulo 16. -/
def Obligations.KeySkipsTestTheLevel : Prop :=
  ∀ (x : Nibble) (s : State),
    ((s.getV x).toNat ≤ 15 ∨ s.cfg.keyIndexPolicy = .mask → ∃ t u,
      exec (.skpVx x) s = .next t ∧ exec (.sknpVx x) s = .next u ∧
      t = { s with pc := t.pc } ∧ u = { s with pc := u.pc } ∧
      (s.key[(s.getV x).toNat % 16]? = some true → t.pc = s.pc + 2 ∧ u.pc = s.pc) ∧
      (s.key[(s.getV x).toNat % 16]? = some false → t.pc = s.pc ∧ u.pc = s.pc + 2)) ∧
    (15 < (s.getV x).toNat → s.cfg.keyIndexPolicy = .fault →
      exec (.skpVx x) s = .fault (.keyIndexFault (s.getV x)) ∧
        exec (.sknpVx x) s = .fault (.keyIndexFault (s.getV x)))

/-- LD Vx, DT; LD DT, Vx (R222, R224), as handlers, and over a whole cycle, whose countdown comes first. -/
def Obligations.DelayTimerMoves : Prop :=
  ∀ (x : Nibble) (s : State),
    (∀ strict w, famField w = 0xF → kkField w = 0x07 → xField w = x → decodeWord strict w = .ok (.ldVxDt x)) ∧
    (∃ t, exec (.ldVxDt x) s = .next t ∧ t = { s with v := t.v } ∧
      ∀ z, t.getV z = if z = x then s.dt else s.getV z) ∧
    (Executes s (.ldVxDt x) → ∃ t, step s = .next t ∧ t.dt.toNat = s.dt.toNat - 1 ∧ (t.getV x).toNat = s.dt.toNat - 1) ∧
    (∀ strict w, famField w = 0xF → kkField w = 0x15 → xField w = x → decodeWord strict w = .ok (.ldDtVx x)) ∧
    (∃ t, exec (.ldDtVx x) s = .next t ∧ t.dt = s.getV x ∧ t = { s with dt := t.dt }) ∧
    (Executes s (.ldDtVx x) → ∃ t, step s = .next t ∧ t.dt = s.getV x)

/-- LD ST, Vx (R225), with the beep output `ST > 0`, which is the spec's own decision D15 (R28, notes/assumptions/18.md). -/
def Obligations.SoundTimerLoadAndBeep : Prop :=
  ∀ (x : Nibble) (s : State), ∃ t, exec (.ldStVx x) s = .next t ∧ t.st = s.getV x ∧ t = { s with st := t.st } ∧
    (t.shouldBeep = true ↔ 1 ≤ (s.getV x).toNat)

/-- LD Vx, K (R223): the least pressed key and AWR, or AWP and the advance undone; either way the gate is closed. -/
def Obligations.LoadKeyTakesLeastKeyOrWaits : Prop :=
  ∀ (x : Nibble) (s : State),
    (∀ strict w, famField w = 0xF → kkField w = 0x0A → xField w = x → decodeWord strict w = .ok (.ldVxK x)) ∧
    (∀ k : Nat, s.key[k]? = some true → (∀ l < k, s.key[l]? = some false) →
      ∃ t, exec (.ldVxK x) s = .next t ∧ t.awr = true ∧ t.gated = true ∧ (t.getV x).toNat = k ∧
        (∀ z, z ≠ x → t.getV z = s.getV z) ∧ t = { s with v := t.v, awr := t.awr }) ∧
    ((∀ k < 16, s.key[k]? = some false) →
      ∃ t, exec (.ldVxK x) s = .next t ∧ t.awp = true ∧ t.gated = true ∧ t.pc = s.pc - 2 ∧
        t = { s with awp := t.awp, pc := t.pc }) ∧
    (∀ s' t', Executes s' (.ldVxK x) → step s' = .next t' → s'.awp = false ∧ s'.awr = false)

/-- The key-wait machine (R226): the transitions of its three states by a cycle and by the host's edges, with their
effects. -/
def Obligations.KeyWaitTransitions : Prop :=
  (∀ s t, s.keyWait = some .running → (∀ x, ¬ Executes s (.ldVxK x)) → step s = .next t →
    t.keyWait = some .running) ∧
  (∀ s x, s.keyWait = some .running → Executes s (.ldVxK x) → ∃ t, step s = .next t ∧
    (∀ k : Nat, s.key[k]? = some true → (∀ l < k, s.key[l]? = some false) →
      t.keyWait = some .awaitingRelease ∧ (t.getV x).toNat = k ∧ t.pc = s.pc + 2) ∧
    ((∀ k < 16, s.key[k]? = some false) → t.keyWait = some .awaitingPress ∧ t.pc = s.pc)) ∧
  (∀ s, s.keyWait = some .awaitingPress ∨ s.keyWait = some .awaitingRelease →
    ∃ t, step s = .next t ∧ t.keyWait = s.keyWait ∧ t = { s with dt := t.dt, st := t.st } ∧
      t.dt.toNat = s.dt.toNat - 1 ∧ t.st.toNat = s.st.toNat - 1) ∧
  (∀ s, s.keyWait = some .running → hostMove .keyDownEdge s = s ∧ hostMove .keyUpEdge s = s) ∧
  (∀ s, s.keyWait = some .awaitingPress →
    (hostMove .keyDownEdge s).keyWait = some .running ∧ hostMove .keyDownEdge s = { s with awp := false } ∧
      hostMove .keyUpEdge s = s) ∧
  (∀ s, s.keyWait = some .awaitingRelease →
    (hostMove .keyUpEdge s).keyWait = some .running ∧ hostMove .keyUpEdge s = { s with awr := false } ∧
      hostMove .keyDownEdge s = s) ∧
  (∀ s k b, (hostMove (.setKey k b) s).keyWait = s.keyWait ∧
    hostMove (.setKey k b) s = { s with key := (hostMove (.setKey k b) s).key })

/-! ### Reset, load, host (70_reset_and_hazards.md, 60_exceptions.md) -/

/-- What reset leaves, for any parameters, where the source states it (R41): registers 0, `PC` = 0x200, memory 0 but for the
80 font bytes at FONT_BASE. -/
def Obligations.ResetStatedValues : Prop :=
  ∀ c : Config, (∀ x, (State.resetWith c).getV x = 0) ∧ (State.resetWith c).pc = 0x200 ∧
    (∀ (k : Nat) (b : Byte), c.fontGlyphs[k]? = some b → (State.resetWith c).byteAt (c.fontBase.val + k) = b) ∧
    (∀ a < 4096, a < c.fontBase.val ∨ c.fontBase.val + 80 ≤ a → (State.resetWith c).byteAt a = 0)

/-- What reset leaves where the source is silent: 0 everywhere, the spec's own decision D11 (notes/assumptions/8.md). -/
def Obligations.ResetDecidedValues : Prop :=
  ∀ c : Config, (State.resetWith c).i = 0 ∧ (State.resetWith c).sp = 0 ∧
    (∀ (k : Nat) (w : Word), (State.resetWith c).stack[k]? = some w → w = 0) ∧ (State.resetWith c).dt = 0 ∧ (State.resetWith c).st = 0 ∧
    (∀ p, (State.resetWith c).cell p = false) ∧ (State.resetWith c).redraw = false ∧
    (∀ (k : Nat) (b : Bool), (State.resetWith c).key[k]? = some b → b = false) ∧ (State.resetWith c).keyWait = some .running ∧
    (State.resetWith c).shouldBeep = false

/-- The ROM load (R281): the image at 0x200 upward, `PC` = 0x200, nothing else; an image over 3584 bytes is refused, the
spec's own decision D19 (R282, notes/assumptions/20.md). -/
def Obligations.RomLoadPlacesTheImage : Prop :=
  ∀ (image : List Byte) (s : State),
    (image.length ≤ 3584 → ∃ t, loadRom image s = .next t ∧ t.pc = 0x200 ∧
      (∀ (k : Nat) (b : Byte), image[k]? = some b → t.byteAt (0x200 + k) = b) ∧
      (∀ a, a < 0x200 ∨ 0x200 + image.length ≤ a → t.byteAt a = s.byteAt a) ∧
      t = { s with mem := t.mem, pc := t.pc }) ∧
    (3584 < image.length → loadRom image s = .refused (.imageTooLong image.length))

/-- The host's moves (R254), each changing its own element alone; the set of moves is the spec's own decisions D18 and D24
(notes/assumptions/16.md). -/
def Obligations.HostMovesChangeTheirElementOnly : Prop :=
  ∀ (s : State) (k : Nibble) (b : Bool),
    ((hostMove (.setKey k b) s).key[k.toNat]? = some b ∧
      (∀ l, l ≠ k.toNat → (hostMove (.setKey k b) s).key[l]? = s.key[l]?) ∧
      hostMove (.setKey k b) s = { s with key := (hostMove (.setKey k b) s).key }) ∧
    hostMove .keyDownEdge s = { s with awp := false } ∧
    hostMove .keyUpEdge s = { s with awr := false } ∧
    hostMove .clearRedraw s = { s with redraw := false }

/-- A finished program stays finished: every cycle changes nothing but the timers (R129), from a state with the
invariant, whose memory clause is the model's own (notes/assumptions/22.md). The definition of the end is the spec's own
decision D21 (notes/assumptions/26.md). -/
def Obligations.FinishedProgramStaysFinished : Prop :=
  ∀ s, StateInv s → Finished s → ∃ t, step s = .next t ∧ t = { s with dt := t.dt, st := t.st } ∧ Finished t
end

