-- ==== Sys2Proof/Laws/Encoding.lean ====
section
/-! SUPPORT. Words and their fields as numbers (30_encoding.md R7, R91, R92), both ways. -/

namespace Sys2Proof

/-! ### Fields as numbers -/

theorem famField_toNat (w : Word) : (famField w).toNat = w.toNat / 4096 := by
  have := w.isLt
  simp only [famField, BitVec.extractLsb'_toNat, Nat.shiftRight_eq_div_pow]
  omega
theorem xField_toNat (w : Word) : (xField w).toNat = w.toNat / 256 % 16 := by
  simp [xField, BitVec.extractLsb'_toNat, Nat.shiftRight_eq_div_pow]
theorem yField_toNat (w : Word) : (yField w).toNat = w.toNat / 16 % 16 := by
  simp [yField, BitVec.extractLsb'_toNat, Nat.shiftRight_eq_div_pow]
theorem nField_toNat (w : Word) : (nField w).toNat = w.toNat % 16 := by
  simp [nField, BitVec.extractLsb'_toNat]
theorem kkField_toNat (w : Word) : (kkField w).toNat = w.toNat % 256 := by
  simp [kkField, BitVec.extractLsb'_toNat]
theorem nnnField_toNat (w : Word) : (nnnField w).toNat = w.toNat % 4096 := by
  simp [nnnField, BitVec.extractLsb'_toNat]

/-! ### Packed words as numbers -/

theorem toNat_append_eq {m n : Nat} (a : BitVec m) (b : BitVec n) : (a ++ b).toNat = a.toNat * 2 ^ n + b.toNat := by
  rw [BitVec.toNat_append, ← Nat.shiftLeft_add_eq_or_of_lt b.isLt, Nat.shiftLeft_eq]

theorem packNNN_toNat (f : Nibble) (nnn : Addr12) : (packNNN f nnn).toNat = f.toNat * 4096 + nnn.toNat :=
  toNat_append_eq f nnn

theorem packXKK_toNat (f x : Nibble) (kk : Byte) :
    (packXKK f x kk).toNat = f.toNat * 4096 + x.toNat * 256 + kk.toNat := by
  refine (toNat_append_eq (f ++ x) kk).trans ?_
  rw [toNat_append_eq]
  omega

theorem packXYN_toNat (f x y n : Nibble) :
    (packXYN f x y n).toNat = f.toNat * 4096 + x.toNat * 256 + y.toNat * 16 + n.toNat := by
  refine (toNat_append_eq (f ++ x ++ y) n).trans ?_
  rw [toNat_append_eq, toNat_append_eq]
  omega

theorem wordOfBytes_toNat (b1 b2 : Byte) : (wordOfBytes b1 b2).toNat = b1.toNat * 256 + b2.toNat :=
  toNat_append_eq b1 b2

/-! ### The fields of a packed word -/

@[simp] theorem famField_packNNN (f : Nibble) (nnn : Addr12) : famField (packNNN f nnn) = f := by
  apply BitVec.eq_of_toNat_eq
  rw [famField_toNat, packNNN_toNat]
  omega
@[simp] theorem nnnField_packNNN (f : Nibble) (nnn : Addr12) : nnnField (packNNN f nnn) = nnn := by
  apply BitVec.eq_of_toNat_eq
  rw [nnnField_toNat, packNNN_toNat]
  omega
@[simp] theorem famField_packXKK (f x : Nibble) (kk : Byte) : famField (packXKK f x kk) = f := by
  apply BitVec.eq_of_toNat_eq
  rw [famField_toNat, packXKK_toNat]
  omega
@[simp] theorem xField_packXKK (f x : Nibble) (kk : Byte) : xField (packXKK f x kk) = x := by
  apply BitVec.eq_of_toNat_eq
  rw [xField_toNat, packXKK_toNat]
  omega
@[simp] theorem kkField_packXKK (f x : Nibble) (kk : Byte) : kkField (packXKK f x kk) = kk := by
  apply BitVec.eq_of_toNat_eq
  rw [kkField_toNat, packXKK_toNat]
  omega
@[simp] theorem famField_packXYN (f x y n : Nibble) : famField (packXYN f x y n) = f := by
  apply BitVec.eq_of_toNat_eq
  rw [famField_toNat, packXYN_toNat]
  omega
@[simp] theorem xField_packXYN (f x y n : Nibble) : xField (packXYN f x y n) = x := by
  apply BitVec.eq_of_toNat_eq
  rw [xField_toNat, packXYN_toNat]
  omega
@[simp] theorem yField_packXYN (f x y n : Nibble) : yField (packXYN f x y n) = y := by
  apply BitVec.eq_of_toNat_eq
  rw [yField_toNat, packXYN_toNat]
  omega
@[simp] theorem nField_packXYN (f x y n : Nibble) : nField (packXYN f x y n) = n := by
  apply BitVec.eq_of_toNat_eq
  rw [nField_toNat, packXYN_toNat]
  omega

/-! ### A word is its packed fields -/

theorem packNNN_fields (w : Word) : packNNN (famField w) (nnnField w) = w := by
  apply BitVec.eq_of_toNat_eq
  rw [packNNN_toNat, famField_toNat, nnnField_toNat]
  omega
theorem packXKK_fields (w : Word) : packXKK (famField w) (xField w) (kkField w) = w := by
  apply BitVec.eq_of_toNat_eq
  rw [packXKK_toNat, famField_toNat, xField_toNat, kkField_toNat]
  omega
theorem packXYN_fields (w : Word) : packXYN (famField w) (xField w) (yField w) (nField w) = w := by
  apply BitVec.eq_of_toNat_eq
  rw [packXYN_toNat, famField_toNat, xField_toNat, yField_toNat, nField_toNat]
  omega

/-- The two bytes of a word make the word again (R63). -/
theorem wordOfBytes_bytesOfWord (w : Word) : wordOfBytes (w.extractLsb' 8 8) (w.extractLsb' 0 8) = w := by
  apply BitVec.eq_of_toNat_eq
  have := w.isLt
  rw [wordOfBytes_toNat]
  simp only [BitVec.extractLsb'_toNat, Nat.shiftRight_eq_div_pow]
  omega

end Sys2Proof
end

