-- ==== Sys2Proof/Laws/Decode.lean ====
section
/-! SUPPORT. The decoder family by family, so that no proof unfolds it (30_encoding.md R96). -/

namespace Sys2Proof

/-- The sixteen families. -/
theorem nibble_cases (f : Nibble) :
    f = 0x0#4 ∨ f = 0x1#4 ∨ f = 0x2#4 ∨ f = 0x3#4 ∨ f = 0x4#4 ∨ f = 0x5#4 ∨ f = 0x6#4 ∨ f = 0x7#4 ∨ f = 0x8#4 ∨
      f = 0x9#4 ∨ f = 0xA#4 ∨ f = 0xB#4 ∨ f = 0xC#4 ∨ f = 0xD#4 ∨ f = 0xE#4 ∨ f = 0xF#4 := by
  revert f
  decide

variable {w : Word} (strict : Bool)

theorem decodeWord_fam0 (h : famField w = 0x0#4) : decodeWord strict w = decodeFam0 strict w := by
  rw [decodeWord, h]; rfl
theorem decodeWord_fam1 (h : famField w = 0x1#4) : decodeWord strict w = .ok (.jp (nnnField w)) := by
  rw [decodeWord, h]; rfl
theorem decodeWord_fam2 (h : famField w = 0x2#4) : decodeWord strict w = .ok (.call (nnnField w)) := by
  rw [decodeWord, h]; rfl
theorem decodeWord_fam3 (h : famField w = 0x3#4) : decodeWord strict w = .ok (.seVxKk (xField w) (kkField w)) := by
  rw [decodeWord, h]; rfl
theorem decodeWord_fam4 (h : famField w = 0x4#4) : decodeWord strict w = .ok (.sneVxKk (xField w) (kkField w)) := by
  rw [decodeWord, h]; rfl
theorem decodeWord_fam5 (h : famField w = 0x5#4) :
    decodeWord strict w = acceptDontCare strict w (.seVxVy (xField w) (yField w) (nField w)) := by
  rw [decodeWord, h]; rfl
theorem decodeWord_fam6 (h : famField w = 0x6#4) : decodeWord strict w = .ok (.ldVxKk (xField w) (kkField w)) := by
  rw [decodeWord, h]; rfl
theorem decodeWord_fam7 (h : famField w = 0x7#4) : decodeWord strict w = .ok (.addVxKk (xField w) (kkField w)) := by
  rw [decodeWord, h]; rfl
theorem decodeWord_fam8 (h : famField w = 0x8#4) : decodeWord strict w = decodeFam8 w := by
  rw [decodeWord, h]; rfl
theorem decodeWord_fam9 (h : famField w = 0x9#4) :
    decodeWord strict w = acceptDontCare strict w (.sneVxVy (xField w) (yField w) (nField w)) := by
  rw [decodeWord, h]; rfl
theorem decodeWord_famA (h : famField w = 0xA#4) : decodeWord strict w = .ok (.ldI (nnnField w)) := by
  rw [decodeWord, h]; rfl
theorem decodeWord_famB (h : famField w = 0xB#4) : decodeWord strict w = .ok (.jpV0 (nnnField w)) := by
  rw [decodeWord, h]; rfl
theorem decodeWord_famC (h : famField w = 0xC#4) : decodeWord strict w = .ok (.rndVxKk (xField w) (kkField w)) := by
  rw [decodeWord, h]; rfl
theorem decodeWord_famD (h : famField w = 0xD#4) :
    decodeWord strict w = .ok (.drw (xField w) (yField w) (nField w)) := by
  rw [decodeWord, h]; rfl
theorem decodeWord_famE (h : famField w = 0xE#4) : decodeWord strict w = decodeFamE w := by
  rw [decodeWord, h]; rfl
theorem decodeWord_famF (h : famField w = 0xF#4) : decodeWord strict w = decodeFamF w := by
  rw [decodeWord, h]; rfl

/-- `acceptDontCare` accepts exactly the well-formed instruction. -/
theorem acceptDontCare_eq_ok {i j : Instr} :
    acceptDontCare strict w i = .ok j ↔ i = j ∧ i.wellFormed strict = true := by
  unfold acceptDontCare
  split <;> simp_all

/-- `acceptDontCare` rejects exactly an instruction that is not well-formed. -/
theorem acceptDontCare_eq_error {i : Instr} {e : WordReject} :
    acceptDontCare strict w i = .error e ↔ e = .invalidOpcode w ∧ i.wellFormed strict = false := by
  unfold acceptDontCare
  split
  · next h => simp [h]
  · next h => simp [h, eq_comm]

end Sys2Proof
end

