-- ==== Sys2Proof/Laws/Display.lean ====
section
/-! SUPPORT. The framebuffer: flipping a cell, and a drawn sprite as the XOR with the wrapped mask (44_display.md R211, R212). -/

namespace Sys2Proof.Machine

/-- Flipping cell `q` changes that cell alone (R211). -/
theorem Frame.cell_flip (f : Frame) {p q : Nat} (hp : p < 2048) (hq : q < 2048) :
    Frame.cell (Frame.flip f q) p = (Frame.cell f p ^^ decide (p = q)) := by
  have h1 : p / 64 < 32 := by omega
  have h2 : q / 64 < 32 := by omega
  have h3 : p % 64 < 64 := by omega
  unfold Frame.cell Frame.flip
  rw [Vector.getElem?_setIfInBounds]
  by_cases hr : q / 64 = p / 64
  · have e : (p = q) ↔ q % 64 = p % 64 := by omega
    simp [hr, h1, h3, e, eq_comm]
  · have e : p ≠ q := by rintro rfl; exact hr rfl
    simp [hr, e]

/-- A cleared framebuffer has every cell 0 (R210). -/
@[simp] theorem Frame.cell_clear (p : Nat) : Frame.cell Frame.clear p = false := by
  unfold Frame.cell Frame.clear
  by_cases h : p / 64 < 32 <;> simp [h]

/-- Framebuffers with equal cells are equal (R29). -/
theorem Frame.ext_cell {f g : Frame} (h : ∀ p < 2048, Frame.cell f p = Frame.cell g p) : f = g := by
  apply Vector.ext
  intro r hr
  ext c hc
  have h1 : (r * 64 + c) / 64 = r := by omega
  have h2 : (r * 64 + c) % 64 = c := by omega
  have := h (r * 64 + c) (by omega)
  simpa [Frame.cell, h1, h2, hr, hc] using this

/-- Flipping the cells of a list one after the other, remembering whether a lit one was met. -/
def flipAll (acc : Frame × Bool) (cells : List Nat) : Frame × Bool :=
  cells.foldl (fun acc p => (Frame.flip acc.1 p, acc.2 || Frame.cell acc.1 p)) acc

/-- Flipping distinct cells: each of them changes, each is tested as it was before, no other cell changes (R212). -/
theorem flipAll_spec (cells : List Nat) (hnd : cells.Nodup) (hlt : ∀ q ∈ cells, q < 2048) (f : Frame) (hit : Bool) :
    (∀ p < 2048, Frame.cell (flipAll (f, hit) cells).1 p = (Frame.cell f p ^^ decide (p ∈ cells))) ∧
      (flipAll (f, hit) cells).2 = (hit || cells.any (Frame.cell f)) := by
  induction cells generalizing f hit with
  | nil => simp [flipAll]
  | cons q cells ih =>
    obtain ⟨hq, hnd⟩ := List.nodup_cons.1 hnd
    have hq2 : q < 2048 := hlt q (by simp)
    obtain ⟨ih1, ih2⟩ := ih hnd (fun p hp => hlt p (by simp [hp])) (Frame.flip f q) (hit || Frame.cell f q)
    have step : flipAll (f, hit) (q :: cells) = flipAll (Frame.flip f q, hit || Frame.cell f q) cells := rfl
    rw [step]
    refine ⟨fun p hp => ?_, ?_⟩
    · rw [ih1 p hp, Frame.cell_flip f hp hq2]
      by_cases e : p = q
      · subst e; simp [hq]
      · simp [e]
    · rw [ih2, List.any_cons, Bool.or_assoc]
      congr 2
      have hmem : ∀ p ∈ cells, Frame.cell (Frame.flip f q) p = Frame.cell f p := by
        intro p hp
        have e : p ≠ q := by rintro rfl; exact hq hp
        rw [Frame.cell_flip f (hlt p (by simp [hp])) hq2]
        simp [e]
      rw [Bool.eq_iff_iff, List.any_eq_true, List.any_eq_true]
      exact exists_congr fun p => and_congr_right fun hp => by rw [hmem p hp]

/-- The cells row `i` of a sprite sets. -/
def rowCells (x0 y0 i : Nat) (b : Byte) : List Nat :=
  ((List.range 8).filter (spriteBit b)).map (spriteCell x0 y0 i)

/-- The cells a sprite sets, its first row being row `i`. -/
def spriteCells (x0 y0 : Nat) : Nat → List Byte → List Nat
  | _, [] => []
  | i, b :: bs => rowCells x0 y0 i b ++ spriteCells x0 y0 (i + 1) bs

theorem drawRow_eq_flipAll (x0 y0 i : Nat) (b : Byte) (acc : Frame × Bool) :
    drawRow x0 y0 i b acc = flipAll acc (rowCells x0 y0 i b) := by
  unfold drawRow rowCells flipAll
  rw [List.foldl_map, List.foldl_filter]
  rfl

theorem drawRows_eq_flipAll (x0 y0 i : Nat) (rows : List Byte) (acc : Frame × Bool) :
    drawRows x0 y0 i rows acc = flipAll acc (spriteCells x0 y0 i rows) := by
  induction rows generalizing i acc with
  | nil => rfl
  | cons b bs ih =>
    rw [drawRows, ih, drawRow_eq_flipAll, spriteCells, flipAll, flipAll, flipAll, List.foldl_append]

theorem mem_rowCells {x0 y0 i : Nat} {b : Byte} {p : Nat} :
    p ∈ rowCells x0 y0 i b ↔ ∃ j < 8, spriteBit b j = true ∧ spriteCell x0 y0 i j = p := by
  simp [rowCells, and_assoc]

theorem mem_spriteCells {x0 y0 i : Nat} {rows : List Byte} {p : Nat} :
    p ∈ spriteCells x0 y0 i rows ↔
      ∃ k, ∃ h : k < rows.length, ∃ j < 8, spriteBit rows[k] j = true ∧ spriteCell x0 y0 (i + k) j = p := by
  induction rows generalizing i with
  | nil => simp [spriteCells]
  | cons b bs ih =>
    rw [spriteCells, List.mem_append, mem_rowCells, ih]
    constructor
    · rintro (⟨j, hj, hb, hp⟩ | ⟨k, hk, j, hj, hb, hp⟩)
      · exact ⟨0, by simp, j, hj, by simpa using hb, by simpa using hp⟩
      · exact ⟨k + 1, by simpa using hk, j, hj, by simpa using hb, by rw [← hp]; congr 1; omega⟩
    · rintro ⟨k, hk, j, hj, hb, hp⟩
      cases k with
      | zero => exact .inl ⟨j, hj, by simpa using hb, by simpa using hp⟩
      | succ k =>
        exact .inr ⟨k, by simpa using hk, j, hj, by simpa using hb, by rw [← hp]; congr 1; omega⟩

/-- No cell is visited twice (R212). -/
theorem spriteCell_inj {x0 y0 i i' j j' : Nat} (hi : i < 32) (hi' : i' < 32) (hj : j < 8) (hj' : j' < 8)
    (h : spriteCell x0 y0 i j = spriteCell x0 y0 i' j') : i = i' ∧ j = j' := by
  unfold spriteCell at h
  omega

theorem spriteCell_lt (x0 y0 i j : Nat) : spriteCell x0 y0 i j < 2048 := by
  unfold spriteCell
  omega

theorem spriteCells_nodup (x0 y0 i : Nat) (rows : List Byte) (h : i + rows.length ≤ 32) :
    (spriteCells x0 y0 i rows).Nodup := by
  induction rows generalizing i with
  | nil => simp [spriteCells]
  | cons b bs ih =>
    simp only [List.length_cons] at h
    rw [spriteCells, List.nodup_append]
    refine ⟨?_, ih (i + 1) (by omega), ?_⟩
    · refine List.Nodup.map_on ?_ (List.nodup_range.filter _)
      intro j hj j' hj' e
      simp only [List.mem_filter, List.mem_range] at hj hj'
      exact (spriteCell_inj (by omega) (by omega) hj.1 hj'.1 e).2
    · intro p hp q hq e
      obtain ⟨j, hj, -, rfl⟩ := mem_rowCells.1 hp
      obtain ⟨k, hk, j', hj', -, rfl⟩ := mem_spriteCells.1 hq
      have := (spriteCell_inj (by omega) (by omega) hj hj' e).1
      omega

/-- The sprite's cells are those of the wrapped mask in closed form. -/
theorem mem_spriteCells_iff_wrappedMask {x0 y0 : Nat} {rows : List Byte} {p : Nat} (hx : x0 < 64) (hy : y0 < 32)
    (hlen : rows.length ≤ 32) (hp : p < 2048) :
    p ∈ spriteCells x0 y0 0 rows ↔ wrappedMask x0 y0 rows p = true := by
  rw [mem_spriteCells]
  unfold wrappedMask
  simp only [Bool.and_eq_true, decide_eq_true_eq]
  constructor
  · rintro ⟨k, hk, j, hj, hb, rfl⟩
    have e1 : (spriteCell x0 y0 (0 + k) j % 64 + (64 - x0)) % 64 = j := by unfold spriteCell; omega
    have e2 : (spriteCell x0 y0 (0 + k) j / 64 + (32 - y0)) % 32 = k := by unfold spriteCell; omega
    rw [e1, e2]
    exact ⟨hj, by simpa [hk] using hb⟩
  · rintro ⟨hj, hb⟩
    by_cases hk : (p / 64 + (32 - y0)) % 32 < rows.length
    · refine ⟨_, hk, _, hj, by simpa [hk] using hb, ?_⟩
      unfold spriteCell
      omega
    · rw [List.getElem?_eq_none (by omega)] at hb
      simp [spriteBit] at hb

/-- Drawing a sprite: every cell is XORed with the wrapped mask, and a collision is a lit cell under the mask (R212). -/
theorem drawSprite_spec (f : Frame) (a b : Byte) (rows : List Byte) (hlen : rows.length ≤ 32) :
    (∀ p < 2048, Frame.cell (drawSprite f a b rows).1 p =
        (Frame.cell f p ^^ wrappedMask (a.toNat % 64) (b.toNat % 32) rows p)) ∧
      ((drawSprite f a b rows).2 = true ↔
        ∃ p < 2048, wrappedMask (a.toNat % 64) (b.toNat % 32) rows p = true ∧ Frame.cell f p = true) := by
  have hx : a.toNat % 64 < 64 := Nat.mod_lt _ (by decide)
  have hy : b.toNat % 32 < 32 := Nat.mod_lt _ (by decide)
  have hlt : ∀ q ∈ spriteCells (a.toNat % 64) (b.toNat % 32) 0 rows, q < 2048 := by
    intro q hq
    obtain ⟨k, hk, j, hj, -, rfl⟩ := mem_spriteCells.1 hq
    exact spriteCell_lt _ _ _ _
  obtain ⟨h1, h2⟩ := flipAll_spec _ (spriteCells_nodup (a.toNat % 64) (b.toNat % 32) 0 rows (by omega)) hlt f false
  have hm : ∀ p < 2048, (p ∈ spriteCells (a.toNat % 64) (b.toNat % 32) 0 rows ↔
      wrappedMask (a.toNat % 64) (b.toNat % 32) rows p = true) :=
    fun p hp => mem_spriteCells_iff_wrappedMask hx hy hlen hp
  unfold drawSprite
  rw [drawRows_eq_flipAll]
  refine ⟨fun p hp => ?_, ?_⟩
  · rw [h1 p hp]
    congr 1
    rw [Bool.eq_iff_iff, decide_eq_true_iff, hm p hp]
  · rw [h2, Bool.false_or, List.any_eq_true]
    constructor
    · rintro ⟨p, hp, hc⟩
      exact ⟨p, hlt p hp, (hm p (hlt p hp)).1 hp, hc⟩
    · rintro ⟨p, hp, hw, hc⟩
      exact ⟨p, (hm p hp).2 hw, hc⟩

end Sys2Proof.Machine
end

