-- ==== Sys2Proof/Laws/Memory.lean ====
section
/-! SUPPORT. Memory: read after write, and every operation keeps the canonical form (20_memory.md R66, R69). -/

namespace Sys2Proof.Machine

theorem Memory.mem_erase {m : Memory} {a : Nat} {p : Host.Cell} : p ∈ Memory.erase m a ↔ p ∈ m ∧ p.1 ≠ a := by
  simp [Memory.erase]

/-- An address no cell is listed at reads as after reset. -/
theorem Memory.get_of_not_listed (c : Config) {m : Memory} {a : Nat} (h : ∀ p ∈ m, p.1 ≠ a) :
    Memory.get c m a = resetByte c a := by
  induction m with
  | nil => rfl
  | cons p rest ih =>
    have h1 : a ≠ p.1 := fun e => h p (by simp) e.symm
    rw [Memory.get, if_neg h1]
    exact ih (fun q hq => h q (by simp [hq]))

theorem Memory.get_erase_self (c : Config) (m : Memory) (a : Nat) :
    Memory.get c (Memory.erase m a) a = resetByte c a :=
  Memory.get_of_not_listed c (fun _ hp => (Memory.mem_erase.1 hp).2)

theorem Memory.get_erase_ne (c : Config) (m : Memory) {a a' : Nat} (h : a' ≠ a) :
    Memory.get c (Memory.erase m a) a' = Memory.get c m a' := by
  induction m with
  | nil => rfl
  | cons p rest ih =>
    by_cases hp : p.1 = a
    · have h1 : a' ≠ p.1 := by rw [hp]; exact h
      have h2 : Memory.erase (p :: rest) a = Memory.erase rest a := by simp [Memory.erase, hp]
      rw [h2, ih, Memory.get, if_neg h1]
    · have h2 : Memory.erase (p :: rest) a = p :: Memory.erase rest a := by simp [Memory.erase, hp]
      rw [h2, Memory.get, Memory.get, ih]

/-- An inserted cell is read at its address when no other cell is listed there; other addresses read as before. -/
theorem Memory.get_insert (c : Config) (m : Memory) (a : Nat) (b : Byte) (h : ∀ p ∈ m, p.1 ≠ a) (a' : Nat) :
    Memory.get c (Memory.insert m a b) a' = if a' = a then b else Memory.get c m a' := by
  induction m with
  | nil => simp [Memory.insert, Memory.get]
  | cons p rest ih =>
    have hp : p.1 ≠ a := h p (by simp)
    have ih := ih (fun q hq => h q (by simp [hq]))
    by_cases hlt : a < p.1
    · simp [Memory.insert, hlt, Memory.get]
    · simp only [Memory.insert, if_neg hlt, Memory.get, ih]
      by_cases h1 : a' = p.1
      · have : a' ≠ a := by omega
        simp [h1, hp]
      · simp [h1]

/-- A read after a write: the byte written at its address, every other byte as before (R66, R69). -/
theorem Memory.get_set (c : Config) (m : Memory) (a : Nat) (b : Byte) (a' : Nat) :
    Memory.get c (Memory.set c m a b) a' = if a' = a then b else Memory.get c m a' := by
  unfold Memory.set
  split
  · next hb =>
    split
    · next h => subst h; rw [Memory.get_erase_self, hb]
    · next h => exact Memory.get_erase_ne c m h
  · rw [Memory.get_insert c _ a b (fun _ hp => (Memory.mem_erase.1 hp).2)]
    split
    · rfl
    · next h => exact Memory.get_erase_ne c m h

theorem Memory.mem_insert {m : Memory} {a : Nat} {b : Byte} {p : Host.Cell} :
    p ∈ Memory.insert m a b ↔ p = (a, b) ∨ p ∈ m := by
  induction m with
  | nil => simp [Memory.insert]
  | cons q rest ih =>
    by_cases h : a < q.1
    · simp [Memory.insert, h]
    · simp only [Memory.insert, if_neg h, List.mem_cons, ih]
      tauto

theorem Memory.wf_erase {c : Config} {m : Memory} (h : Memory.wf c m) (a : Nat) : Memory.wf c (Memory.erase m a) :=
  ⟨h.1.sublist List.filter_sublist, fun p hp => h.2 p (Memory.mem_erase.1 hp).1⟩

theorem Memory.pairwise_insert {m : Memory} {a : Nat} {b : Byte} (h : m.Pairwise (fun p q => p.1 < q.1))
    (ha : ∀ p ∈ m, p.1 ≠ a) : (Memory.insert m a b).Pairwise (fun p q => p.1 < q.1) := by
  induction m with
  | nil => simp [Memory.insert]
  | cons q rest ih =>
    obtain ⟨hq, hrest⟩ := List.pairwise_cons.1 h
    have hqa : q.1 ≠ a := ha q (by simp)
    by_cases hlt : a < q.1
    · rw [Memory.insert, if_pos hlt]
      refine List.pairwise_cons.2 ⟨fun p hp => ?_, h⟩
      rcases List.mem_cons.1 hp with rfl | hp
      · exact hlt
      · exact lt_trans hlt (hq p hp)
    · rw [Memory.insert, if_neg hlt]
      refine List.pairwise_cons.2 ⟨fun p hp => ?_, ih hrest (fun p hp => ha p (by simp [hp]))⟩
      rcases Memory.mem_insert.1 hp with rfl | hp
      · show q.1 < a
        omega
      · exact hq p hp

/-- A write inside the address space keeps the canonical form. -/
theorem Memory.wf_set {c : Config} {m : Memory} (h : Memory.wf c m) {a : Nat} (ha : a < 4096) (b : Byte) :
    Memory.wf c (Memory.set c m a b) := by
  unfold Memory.set
  split
  · exact Memory.wf_erase h a
  · next hb =>
    have he := Memory.wf_erase h a
    refine ⟨Memory.pairwise_insert he.1 (fun _ hp => (Memory.mem_erase.1 hp).2), fun p hp => ?_⟩
    rcases Memory.mem_insert.1 hp with rfl | hp
    · exact ⟨ha, hb⟩
    · exact he.2 p hp

/-- A byte store keeps the canonical form, whatever the address. -/
theorem Memory.wf_store {c : Config} {m : Memory} (h : Memory.wf c m) (addr : Nat) (b : Byte) :
    Memory.wf c (Memory.store c m addr b) := by
  unfold Memory.store
  split
  · next ha => exact Memory.wf_set h ha b
  · exact h

/-- Storing any bytes anywhere keeps the canonical form. -/
theorem Memory.wf_storeAll {c : Config} {m : Memory} (h : Memory.wf c m) (addr : Nat) (bs : List Byte) :
    Memory.wf c (Memory.storeAll c m addr bs) := by
  induction bs generalizing m addr with
  | nil => exact h
  | cons b bs ih => exact ih (Memory.wf_store h addr b) (addr + 1)

/-- What every address of the space reads after one byte store (R68, R69). -/
theorem Memory.get_store (c : Config) (m : Memory) (addr : Nat) (b : Byte) {a : Nat} (ha : a < 4096) :
    Memory.get c (Memory.store c m addr b) a = if effAddr c addr = a then b else Memory.get c m a := by
  unfold Memory.store
  split
  · rw [Memory.get_set]
    simp only [eq_comm]
  · next h =>
    rw [if_neg]
    rintro rfl
    exact h ha

/-- A byte store leaves every other address as it was (R69). -/
theorem Memory.get_store_ne (c : Config) (m : Memory) (addr : Nat) (b : Byte) {a : Nat} (h : effAddr c addr ≠ a) :
    Memory.get c (Memory.store c m addr b) a = Memory.get c m a := by
  unfold Memory.store
  split
  · rw [Memory.get_set, if_neg (Ne.symm h)]
  · rfl

/-- Addresses outside the stored span read as before (R69). -/
theorem Memory.get_storeAll_of_outside (c : Config) (m : Memory) (addr : Nat) (bs : List Byte) {a : Nat}
    (h : ∀ k < bs.length, effAddr c (addr + k) ≠ a) :
    Memory.get c (Memory.storeAll c m addr bs) a = Memory.get c m a := by
  induction bs generalizing m addr with
  | nil => rfl
  | cons b bs ih =>
    rw [Memory.storeAll, ih, Memory.get_store_ne c m addr b (h 0 (by simp))]
    · intro k hk
      have := h (k + 1) (by simpa using hk)
      rwa [Nat.add_comm k 1, ← Nat.add_assoc] at this

/-- The effective addresses of a span of at most 4096 bytes that passes `CheckSpan` differ (R67, R76). -/
theorem effAddr_inj {c : Config} {addr k l : Nat} (hk : k < 4096) (hl : l < 4096)
    (h : effAddr c (addr + k) = effAddr c (addr + l)) : k = l := by
  unfold effAddr at h
  split at h <;> omega

/-- The effective addresses of a span that passes `CheckSpan` lie in the address space (R67, R68). -/
theorem effAddr_lt {c : Config} {addr len k : Nat} (h : ¬ spanFaults c addr len) (hk : k < len) :
    effAddr c (addr + k) < 4096 := by
  unfold effAddr
  unfold spanFaults at h
  split
  · next hp => simp only [hp, true_and, not_and, not_lt] at h; have := h (by omega); omega
  · omega

/-- The `k`-th stored byte is read at the `k`-th address (R69). -/
theorem Memory.get_storeAll_of_inside (c : Config) (m : Memory) (addr : Nat) (bs : List Byte) {k : Nat}
    (hlen : bs.length ≤ 4096) (hk : k < bs.length) (ha : effAddr c (addr + k) < 4096) :
    Memory.get c (Memory.storeAll c m addr bs) (effAddr c (addr + k)) = bs[k] := by
  induction bs generalizing m addr k with
  | nil => simp at hk
  | cons b bs ih =>
    simp only [List.length_cons] at hlen hk
    rw [Memory.storeAll]
    cases k with
    | zero =>
      rw [Memory.get_storeAll_of_outside c, Memory.get_store c m addr b ha]
      · simp
      · intro l hl e
        have := effAddr_inj (c := c) (addr := addr) (k := l + 1) (l := 0) (by omega) (by omega)
          (by rw [← e]; congr 1; omega)
        omega
    | succ k =>
      have he : addr + (k + 1) = addr + 1 + k := by omega
      simp only [he] at ha ⊢
      simpa using ih _ (addr + 1) (by omega) (by omega) ha

/-- Storing bytes: what every address of the space reads afterwards, for a span that passes `CheckSpan`. -/
theorem byteAt_storeBytes_of_outside (s : State) (addr : Nat) (bs : List Byte) {a : Nat}
    (h : ∀ k < bs.length, effAddr s.cfg (addr + k) ≠ a) : (s.storeBytes addr bs).byteAt a = s.byteAt a :=
  Memory.get_storeAll_of_outside s.cfg s.mem addr bs h

theorem byteAt_storeBytes_of_inside (s : State) (addr : Nat) (bs : List Byte) {k : Nat} (hlen : bs.length ≤ 4096)
    (hk : k < bs.length) (hspan : ¬ spanFaults s.cfg addr bs.length) :
    (s.storeBytes addr bs).byteAt (effAddr s.cfg (addr + k)) = bs[k] :=
  Memory.get_storeAll_of_inside s.cfg s.mem addr bs hlen hk (effAddr_lt hspan hk)

/-- An address above the space reads as 0 in a canonical memory. -/
theorem Memory.get_of_wf_of_ge {c : Config} {m : Memory} (h : Memory.wf c m) {a : Nat} (ha : 4096 ≤ a) :
    Memory.get c m a = 0 := by
  rw [Memory.get_of_not_listed c (fun p hp e => by have := (h.2 p hp).1; omega)]
  unfold resetByte
  split
  · have := c.fontBase.isLt
    rw [Vector.getElem?_eq_none (by omega)]
    rfl
  · rfl

/-- The bytes read one after the other. -/
@[simp] theorem length_loadBytes (s : State) (addr n : Nat) : (s.loadBytes addr n).length = n := by
  simp [State.loadBytes]

theorem getElem_loadBytes (s : State) (addr n k : Nat) (h : k < (s.loadBytes addr n).length) :
    (s.loadBytes addr n)[k] = memRead s (addr + k) := by
  simp [State.loadBytes]

end Sys2Proof.Machine
end

