-- ==== Sys2Proof/Laws/Ops.lean ====
section
/-! SUPPORT. What each shared operation can do, said once. -/

namespace Sys2Proof.Machine

/-! ### `checkSpan` (R67) -/

theorem checkSpan_of_ok {s : State} {addr len : Nat} (h : ¬ spanFaults s.cfg addr len) (k : Result) :
    checkSpan s addr len k = k := if_neg h

theorem checkSpan_of_faults {s : State} {addr len : Nat} (h : spanFaults s.cfg addr len) (k : Result) :
    checkSpan s addr len k = .fault (.addressFault (addr + len - 1)) := if_pos h

/-- A checked instruction answers a next state iff the span passes and the rest answers it. -/
theorem checkSpan_eq_next {s t : State} {addr len : Nat} {k : Result} :
    checkSpan s addr len k = .next t ↔ ¬ spanFaults s.cfg addr len ∧ k = .next t := by
  by_cases h : spanFaults s.cfg addr len
  · simp [checkSpan_of_faults h, h]
  · simp [checkSpan_of_ok h, h]

/-- A checked instruction faults iff the span does, or the rest does. -/
theorem checkSpan_eq_fault {s : State} {addr len : Nat} {k : Result} {r : Fault} :
    checkSpan s addr len k = .fault r ↔
      (spanFaults s.cfg addr len ∧ r = .addressFault (addr + len - 1)) ∨
        (¬ spanFaults s.cfg addr len ∧ k = .fault r) := by
  by_cases h : spanFaults s.cfg addr len
  · rw [checkSpan_of_faults h]
    constructor
    · rintro ⟨⟩
      exact .inl ⟨h, rfl⟩
    · rintro (⟨-, rfl⟩ | ⟨h', -⟩)
      · rfl
      · exact absurd h h'
  · simp [checkSpan_of_ok h, h]

theorem checkSpan_eq_refused {s : State} {addr len : Nat} {k : Result} {r : Refusal} :
    checkSpan s addr len k = .refused r ↔ ¬ spanFaults s.cfg addr len ∧ k = .refused r := by
  by_cases h : spanFaults s.cfg addr len
  · simp [checkSpan_of_faults h, h]
  · simp [checkSpan_of_ok h, h]

/-! ### `withKeyIndex` (R228) -/

theorem withKeyIndex_of_le {s : State} {v : Byte} (h : v.toNat ≤ 15) (k : Nibble → Result) :
    withKeyIndex s v k = k (v.setWidth 4) := if_pos h

theorem withKeyIndex_of_mask {s : State} (v : Byte) (h : s.cfg.keyIndexPolicy = .mask) (k : Nibble → Result) :
    withKeyIndex s v k = k (v.setWidth 4) := by
  simp [withKeyIndex, h]

theorem withKeyIndex_of_fault {s : State} {v : Byte} (hv : 15 < v.toNat) (h : s.cfg.keyIndexPolicy = .fault)
    (k : Nibble → Result) : withKeyIndex s v k = .fault (.keyIndexFault v) := by
  rw [withKeyIndex, if_neg (by omega), h]
  rfl

/-- An indexed instruction either faults on an index above 15 under the fault policy, or goes on with `v mod 16`. -/
theorem withKeyIndex_cases (s : State) (v : Byte) (k : Nibble → Result) :
    (15 < v.toNat ∧ s.cfg.keyIndexPolicy = .fault ∧ withKeyIndex s v k = .fault (.keyIndexFault v)) ∨
      ((v.toNat ≤ 15 ∨ s.cfg.keyIndexPolicy = .mask) ∧ withKeyIndex s v k = k (v.setWidth 4)) := by
  by_cases hv : v.toNat ≤ 15
  · exact .inr ⟨.inl hv, withKeyIndex_of_le hv k⟩
  · cases hp : s.cfg.keyIndexPolicy with
    | fault => exact .inl ⟨by omega, rfl, withKeyIndex_of_fault (by omega) hp k⟩
    | mask => exact .inr ⟨.inr rfl, withKeyIndex_of_mask v hp k⟩

/-! ### `skipIf` (R148) -/

/-- A skip changes `PC` alone. -/
theorem skipIf_frame (c : Bool) (s : State) : skipIf c s = { s with pc := (skipIf c s).pc } := by
  cases c <;> rfl

theorem skipIf_pc (c : Bool) (s : State) : (skipIf c s).pc = if c then s.pc + 2 else s.pc := by
  cases c <;> rfl

/-! ### `zext16` (R93) -/

@[simp] theorem zext16_toNat (nnn : Addr12) : (zext16 nnn).toNat = nnn.toNat := by
  simp only [zext16, BitVec.toNat_setWidth]
  omega

/-! ### `firstKey` (R223) -/

/-- `firstKey` is the least pressed key. -/
theorem firstKey_eq_some {s : State} {k : Nat} :
    firstKey s = some k ↔ ∃ h : k < 16, s.key[k] = true ∧ ∀ l (hl : l < k), s.key[l] = false := by
  unfold firstKey
  rw [List.findIdx?_eq_some_iff_getElem]
  simp

/-- `firstKey` is absent iff no key is pressed. -/
theorem firstKey_eq_none {s : State} : firstKey s = none ↔ ∀ k (h : k < 16), s.key[k] = false := by
  unfold firstKey
  rw [List.findIdx?_eq_none_iff]
  constructor
  · intro h k hk
    have := h s.key[k] (by simp)
    simpa using this
  · intro h b hb
    obtain ⟨k, hk, rfl⟩ := List.getElem_of_mem hb
    have := h k (by simpa using hk)
    simpa using this

end Sys2Proof.Machine
end

