-- ==== Sys2Proof/Laws/PerInstr.lean ====
section
/-! SUPPORT. Statements about every instruction as syntax, one lemma per constructor. `RowMatch`: the word of a well-formed
instruction selects that instruction's row of the opcode map, under the mask in force (30_encoding.md R100). -/

namespace Sys2Proof.Laws.RowMatch

/-- Every well-formed instruction's word selects its own row of R100. -/
def Statement (i : Instr) : Prop :=
  ∀ strict : Bool, i.wellFormed strict = true → encode i &&& i.row.maskOf strict = i.row.pattern

/-- A masked word equals a pattern when its four nibbles do. -/
theorem and_eq_of_nibbles {w m p : Word} (h3 : famField w &&& famField m = famField p)
    (h2 : xField w &&& xField m = xField p) (h1 : yField w &&& yField m = yField p)
    (h0 : nField w &&& nField m = nField p) : w &&& m = p := by
  have hp := packXYN_fields p
  have hw := packXYN_fields (w &&& m)
  have e3 : famField (w &&& m) = famField w &&& famField m := by simp [famField, BitVec.extractLsb'_and]
  have e2 : xField (w &&& m) = xField w &&& xField m := by simp [xField, BitVec.extractLsb'_and]
  have e1 : yField (w &&& m) = yField w &&& yField m := by simp [yField, BitVec.extractLsb'_and]
  have e0 : nField (w &&& m) = nField w &&& nField m := by simp [nField, BitVec.extractLsb'_and]
  rw [← hw, ← hp, e3, e2, e1, e0, h3, h2, h1, h0]

theorem and_fF (a : Nibble) : a &&& 0xF#4 = a := by simpa using BitVec.and_allOnes (x := a)

/-- Format NNN under the mask 0xF000. -/
theorem packNNN_and (f : Nibble) (nnn : Addr12) : packNNN f nnn &&& 0xF000 = packXYN f 0 0 0 := by
  apply and_eq_of_nibbles
  · rw [famField_packNNN, famField_packXYN]; exact and_fF f
  · rw [xField_packXYN]; exact BitVec.and_zero
  · rw [yField_packXYN]; exact BitVec.and_zero
  · rw [nField_packXYN]; exact BitVec.and_zero

/-- Format XKK with an operand `kk`, under the mask 0xF000. -/
theorem packXKK_and (f x : Nibble) (kk : Byte) : packXKK f x kk &&& 0xF000 = packXYN f 0 0 0 := by
  apply and_eq_of_nibbles
  · rw [famField_packXKK, famField_packXYN]; exact and_fF f
  · rw [xField_packXYN]; exact BitVec.and_zero
  · rw [yField_packXYN]; exact BitVec.and_zero
  · rw [nField_packXYN]; exact BitVec.and_zero

/-- The low two nibbles of format XKK. -/
theorem yField_packXKK (f x : Nibble) (kk : Byte) : yField (packXKK f x kk) = kk.extractLsb' 4 4 := by
  apply BitVec.eq_of_toNat_eq
  rw [yField_toNat, packXKK_toNat, BitVec.extractLsb'_toNat, Nat.shiftRight_eq_div_pow]
  omega
theorem nField_packXKK (f x : Nibble) (kk : Byte) : nField (packXKK f x kk) = kk.extractLsb' 0 4 := by
  apply BitVec.eq_of_toNat_eq
  rw [nField_toNat, packXKK_toNat, BitVec.extractLsb'_toNat, Nat.shiftRight_eq_div_pow]
  omega

/-- Formats X and Z, under the mask 0xF0FF: the key is `w[7:0]`. -/
theorem packX_and (f x : Nibble) (key : Byte) : packXKK f x key &&& 0xF0FF = packXKK f 0 key := by
  apply and_eq_of_nibbles
  · rw [famField_packXKK, famField_packXKK]; exact and_fF f
  · rw [xField_packXKK, xField_packXKK]; exact BitVec.and_zero
  · rw [yField_packXKK, yField_packXKK]; exact and_fF _
  · rw [nField_packXKK, nField_packXKK]; exact and_fF _

/-- Format XY, under the mask 0xF00F: the key is `w[3:0]`. -/
theorem packXY_and (f x y key : Nibble) : packXYN f x y key &&& 0xF00F = packXYN f 0 0 key := by
  apply and_eq_of_nibbles
  · rw [famField_packXYN, famField_packXYN]; exact and_fF f
  · rw [xField_packXYN, xField_packXYN]; exact BitVec.and_zero
  · rw [yField_packXYN, yField_packXYN]; exact BitVec.and_zero
  · rw [nField_packXYN, nField_packXYN]; exact and_fF key

/-- Format XYN with an operand `n`, under the mask 0xF000. -/
theorem packXYN_and (f x y n : Nibble) : packXYN f x y n &&& 0xF000 = packXYN f 0 0 0 := by
  apply and_eq_of_nibbles
  · rw [famField_packXYN, famField_packXYN]; exact and_fF f
  · rw [xField_packXYN, xField_packXYN]; exact BitVec.and_zero
  · rw [yField_packXYN, yField_packXYN]; exact BitVec.and_zero
  · rw [nField_packXYN, nField_packXYN]; exact BitVec.and_zero

/-- Under the strict decode a well-formed instruction's don't-care bits are 0. -/
theorem dontCare_of_strict {i : Instr} (h : i.wellFormed true = true) : i.dontCare = 0 := by
  simpa [Instr.wellFormed] using h

theorem cls (dc : Nibble) : Statement (.cls dc) := by
  rintro (_ | _) h
  · exact packX_and 0x0 dc 0xE0
  · obtain rfl : dc = 0 := dontCare_of_strict h
    decide
theorem ret (dc : Nibble) : Statement (.ret dc) := by
  rintro (_ | _) h
  · exact packX_and 0x0 dc 0xEE
  · obtain rfl : dc = 0 := dontCare_of_strict h
    decide
theorem jp (nnn : Addr12) : Statement (.jp nnn) := by rintro (_ | _) - <;> exact packNNN_and 0x1 nnn
theorem call (nnn : Addr12) : Statement (.call nnn) := by rintro (_ | _) - <;> exact packNNN_and 0x2 nnn
theorem seVxKk (x : Nibble) (kk : Byte) : Statement (.seVxKk x kk) := by rintro (_ | _) - <;> exact packXKK_and 0x3 x kk
theorem sneVxKk (x : Nibble) (kk : Byte) : Statement (.sneVxKk x kk) := by
  rintro (_ | _) - <;> exact packXKK_and 0x4 x kk
theorem seVxVy (x y dc : Nibble) : Statement (.seVxVy x y dc) := by
  rintro (_ | _) h
  · exact packXYN_and 0x5 x y dc
  · obtain rfl : dc = 0 := dontCare_of_strict h
    exact packXY_and 0x5 x y 0
theorem ldVxKk (x : Nibble) (kk : Byte) : Statement (.ldVxKk x kk) := by rintro (_ | _) - <;> exact packXKK_and 0x6 x kk
theorem addVxKk (x : Nibble) (kk : Byte) : Statement (.addVxKk x kk) := by
  rintro (_ | _) - <;> exact packXKK_and 0x7 x kk
theorem ldVxVy (x y : Nibble) : Statement (.ldVxVy x y) := by rintro (_ | _) - <;> exact packXY_and 0x8 x y 0x0
theorem orVxVy (x y : Nibble) : Statement (.orVxVy x y) := by rintro (_ | _) - <;> exact packXY_and 0x8 x y 0x1
theorem andVxVy (x y : Nibble) : Statement (.andVxVy x y) := by rintro (_ | _) - <;> exact packXY_and 0x8 x y 0x2
theorem xorVxVy (x y : Nibble) : Statement (.xorVxVy x y) := by rintro (_ | _) - <;> exact packXY_and 0x8 x y 0x3
theorem addVxVy (x y : Nibble) : Statement (.addVxVy x y) := by rintro (_ | _) - <;> exact packXY_and 0x8 x y 0x4
theorem subVxVy (x y : Nibble) : Statement (.subVxVy x y) := by rintro (_ | _) - <;> exact packXY_and 0x8 x y 0x5
theorem shrVxVy (x y : Nibble) : Statement (.shrVxVy x y) := by rintro (_ | _) - <;> exact packXY_and 0x8 x y 0x6
theorem subnVxVy (x y : Nibble) : Statement (.subnVxVy x y) := by rintro (_ | _) - <;> exact packXY_and 0x8 x y 0x7
theorem shlVxVy (x y : Nibble) : Statement (.shlVxVy x y) := by rintro (_ | _) - <;> exact packXY_and 0x8 x y 0xE
theorem sneVxVy (x y dc : Nibble) : Statement (.sneVxVy x y dc) := by
  rintro (_ | _) h
  · exact packXYN_and 0x9 x y dc
  · obtain rfl : dc = 0 := dontCare_of_strict h
    exact packXY_and 0x9 x y 0
theorem ldI (nnn : Addr12) : Statement (.ldI nnn) := by rintro (_ | _) - <;> exact packNNN_and 0xA nnn
theorem jpV0 (nnn : Addr12) : Statement (.jpV0 nnn) := by rintro (_ | _) - <;> exact packNNN_and 0xB nnn
theorem rndVxKk (x : Nibble) (kk : Byte) : Statement (.rndVxKk x kk) := by
  rintro (_ | _) - <;> exact packXKK_and 0xC x kk
theorem drw (x y n : Nibble) : Statement (.drw x y n) := by rintro (_ | _) - <;> exact packXYN_and 0xD x y n
theorem skpVx (x : Nibble) : Statement (.skpVx x) := by rintro (_ | _) - <;> exact packX_and 0xE x 0x9E
theorem sknpVx (x : Nibble) : Statement (.sknpVx x) := by rintro (_ | _) - <;> exact packX_and 0xE x 0xA1
theorem ldVxDt (x : Nibble) : Statement (.ldVxDt x) := by rintro (_ | _) - <;> exact packX_and 0xF x 0x07
theorem ldVxK (x : Nibble) : Statement (.ldVxK x) := by rintro (_ | _) - <;> exact packX_and 0xF x 0x0A
theorem ldDtVx (x : Nibble) : Statement (.ldDtVx x) := by rintro (_ | _) - <;> exact packX_and 0xF x 0x15
theorem ldStVx (x : Nibble) : Statement (.ldStVx x) := by rintro (_ | _) - <;> exact packX_and 0xF x 0x18
theorem addIVx (x : Nibble) : Statement (.addIVx x) := by rintro (_ | _) - <;> exact packX_and 0xF x 0x1E
theorem ldFVx (x : Nibble) : Statement (.ldFVx x) := by rintro (_ | _) - <;> exact packX_and 0xF x 0x29
theorem ldBVx (x : Nibble) : Statement (.ldBVx x) := by rintro (_ | _) - <;> exact packX_and 0xF x 0x33
theorem ldMemVx (x : Nibble) : Statement (.ldMemVx x) := by rintro (_ | _) - <;> exact packX_and 0xF x 0x55
theorem ldVxMem (x : Nibble) : Statement (.ldVxMem x) := by rintro (_ | _) - <;> exact packX_and 0xF x 0x65

end Sys2Proof.Laws.RowMatch
end

