-- ==== Sys2Proof/Laws/State.lean ====
section
/-! SUPPORT. One lemma per field and named update of the state, and the register file's read-after-write laws. -/

namespace Sys2Proof.Machine

/-! ### `setV` -/

@[simp] theorem State.setV_cfg (s : State) (x : Nibble) (b : Byte) : (s.setV x b).cfg = s.cfg := rfl
@[simp] theorem State.setV_i (s : State) (x : Nibble) (b : Byte) : (s.setV x b).i = s.i := rfl
@[simp] theorem State.setV_pc (s : State) (x : Nibble) (b : Byte) : (s.setV x b).pc = s.pc := rfl
@[simp] theorem State.setV_stack (s : State) (x : Nibble) (b : Byte) : (s.setV x b).stack = s.stack := rfl
@[simp] theorem State.setV_sp (s : State) (x : Nibble) (b : Byte) : (s.setV x b).sp = s.sp := rfl
@[simp] theorem State.setV_dt (s : State) (x : Nibble) (b : Byte) : (s.setV x b).dt = s.dt := rfl
@[simp] theorem State.setV_st (s : State) (x : Nibble) (b : Byte) : (s.setV x b).st = s.st := rfl
@[simp] theorem State.setV_fb (s : State) (x : Nibble) (b : Byte) : (s.setV x b).fb = s.fb := rfl
@[simp] theorem State.setV_redraw (s : State) (x : Nibble) (b : Byte) : (s.setV x b).redraw = s.redraw := rfl
@[simp] theorem State.setV_key (s : State) (x : Nibble) (b : Byte) : (s.setV x b).key = s.key := rfl
@[simp] theorem State.setV_awp (s : State) (x : Nibble) (b : Byte) : (s.setV x b).awp = s.awp := rfl
@[simp] theorem State.setV_awr (s : State) (x : Nibble) (b : Byte) : (s.setV x b).awr = s.awr := rfl
@[simp] theorem State.setV_mem (s : State) (x : Nibble) (b : Byte) : (s.setV x b).mem = s.mem := rfl
@[simp] theorem State.setV_draws (s : State) (x : Nibble) (b : Byte) : (s.setV x b).draws = s.draws := rfl

/-- A written register reads as what was written (R20). -/
@[simp] theorem State.getV_setV_self (s : State) (x : Nibble) (b : Byte) : (s.setV x b).getV x = b := by
  simp [State.getV, State.setV]

/-- The other registers read as before (R20). -/
theorem State.getV_setV_ne (s : State) {x y : Nibble} (b : Byte) (h : y ≠ x) : (s.setV x b).getV y = s.getV y := by
  have h' : x.toNat ≠ y.toNat := fun e => h (BitVec.eq_of_toNat_eq e.symm)
  simp [State.getV, State.setV, h']

/-- Both cases at once. -/
theorem State.getV_setV (s : State) (x y : Nibble) (b : Byte) :
    (s.setV x b).getV y = if y = x then b else s.getV y := by
  split
  · next h => subst h; simp
  · next h => exact s.getV_setV_ne b h

/-- Register files agree when every register reads the same. -/
theorem State.v_eq_of_getV {s t : State} (h : ∀ x, t.getV x = s.getV x) : t.v = s.v := by
  apply Vector.ext
  intro k hk
  have h1 := h (BitVec.ofNat 4 k)
  have h2 : k % 16 = k := Nat.mod_eq_of_lt hk
  simpa [State.getV, h2] using h1

/-! ### `setFlag`, `resultThenFlag`, `flagThenResult` -/

theorem State.setFlag_eq (s : State) (b : Bool) : s.setFlag b = s.setV vf (flagByte b) := rfl

/-- A result-then-flag write changes the register file alone. -/
theorem resultThenFlag_frame (s : State) (x : Nibble) (r : Byte) (f : Bool) :
    resultThenFlag s x r f = { s with v := (resultThenFlag s x r f).v } := rfl

/-- A flag-then-result write changes the register file alone. -/
theorem flagThenResult_frame (s : State) (x : Nibble) (f : Bool) (r : Byte) :
    flagThenResult s x f r = { s with v := (flagThenResult s x f r).v } := rfl

/-- What every register reads after result, then flag (R172): VF is the flag, also with `x` = F. -/
theorem getV_resultThenFlag (s : State) (x y : Nibble) (r : Byte) (f : Bool) :
    (resultThenFlag s x r f).getV y = if y = 15 then flagByte f else if y = x then r else s.getV y := by
  change _ = if y = vf then _ else _
  rw [resultThenFlag, State.setFlag_eq, State.getV_setV, State.getV_setV]

/-- What every register reads after flag, then result (R172): with `x` = F the result stands. -/
theorem getV_flagThenResult (s : State) (x y : Nibble) (f : Bool) (r : Byte) :
    (flagThenResult s x f r).getV y = if y = x then r else if y = 15 then flagByte f else s.getV y := by
  change _ = if y = x then _ else if y = vf then _ else _
  rw [flagThenResult, State.setFlag_eq, State.getV_setV, State.getV_setV]

/-! ### `storeBytes` -/

@[simp] theorem State.storeBytes_cfg (s : State) (a : Nat) (bs : List Byte) : (s.storeBytes a bs).cfg = s.cfg := rfl
@[simp] theorem State.storeBytes_v (s : State) (a : Nat) (bs : List Byte) : (s.storeBytes a bs).v = s.v := rfl
@[simp] theorem State.storeBytes_i (s : State) (a : Nat) (bs : List Byte) : (s.storeBytes a bs).i = s.i := rfl
@[simp] theorem State.storeBytes_pc (s : State) (a : Nat) (bs : List Byte) : (s.storeBytes a bs).pc = s.pc := rfl
@[simp] theorem State.storeBytes_stack (s : State) (a : Nat) (bs : List Byte) : (s.storeBytes a bs).stack = s.stack := rfl
@[simp] theorem State.storeBytes_sp (s : State) (a : Nat) (bs : List Byte) : (s.storeBytes a bs).sp = s.sp := rfl
@[simp] theorem State.storeBytes_dt (s : State) (a : Nat) (bs : List Byte) : (s.storeBytes a bs).dt = s.dt := rfl
@[simp] theorem State.storeBytes_st (s : State) (a : Nat) (bs : List Byte) : (s.storeBytes a bs).st = s.st := rfl
@[simp] theorem State.storeBytes_fb (s : State) (a : Nat) (bs : List Byte) : (s.storeBytes a bs).fb = s.fb := rfl
@[simp] theorem State.storeBytes_redraw (s : State) (a : Nat) (bs : List Byte) : (s.storeBytes a bs).redraw = s.redraw := rfl
@[simp] theorem State.storeBytes_key (s : State) (a : Nat) (bs : List Byte) : (s.storeBytes a bs).key = s.key := rfl
@[simp] theorem State.storeBytes_awp (s : State) (a : Nat) (bs : List Byte) : (s.storeBytes a bs).awp = s.awp := rfl
@[simp] theorem State.storeBytes_awr (s : State) (a : Nat) (bs : List Byte) : (s.storeBytes a bs).awr = s.awr := rfl
@[simp] theorem State.storeBytes_draws (s : State) (a : Nat) (bs : List Byte) : (s.storeBytes a bs).draws = s.draws := rfl

/-! ### `bumpI`, `loadRegs` -/

/-- The post-increment changes `I` alone. -/
@[simp] theorem State.bumpI_frame (s : State) (x : Nibble) : { s with i := (s.bumpI x).i } = s.bumpI x := rfl
@[simp] theorem State.bumpI_cfg (s : State) (x : Nibble) : (s.bumpI x).cfg = s.cfg := rfl
@[simp] theorem State.bumpI_v (s : State) (x : Nibble) : (s.bumpI x).v = s.v := rfl
@[simp] theorem State.bumpI_pc (s : State) (x : Nibble) : (s.bumpI x).pc = s.pc := rfl
@[simp] theorem State.bumpI_mem (s : State) (x : Nibble) : (s.bumpI x).mem = s.mem := rfl
@[simp] theorem State.bumpI_awp (s : State) (x : Nibble) : (s.bumpI x).awp = s.awp := rfl
@[simp] theorem State.bumpI_awr (s : State) (x : Nibble) : (s.bumpI x).awr = s.awr := rfl

/-- What every register reads after loading registers `0..x` (R195). -/
theorem State.getV_loadRegs (s : State) (x y : Nibble) :
    (s.loadRegs x).getV y = if y.toNat ≤ x.toNat then memRead s (s.dataAddr y.toNat) else s.getV y := by
  simp [State.getV, State.loadRegs]

/-! ### `countDown`, `advancePc` -/

@[simp] theorem State.countDown_cfg (s : State) : s.countDown.cfg = s.cfg := rfl
@[simp] theorem State.countDown_v (s : State) : s.countDown.v = s.v := rfl
@[simp] theorem State.countDown_i (s : State) : s.countDown.i = s.i := rfl
@[simp] theorem State.countDown_pc (s : State) : s.countDown.pc = s.pc := rfl
@[simp] theorem State.countDown_stack (s : State) : s.countDown.stack = s.stack := rfl
@[simp] theorem State.countDown_sp (s : State) : s.countDown.sp = s.sp := rfl
@[simp] theorem State.countDown_dt (s : State) : s.countDown.dt = countDownTimer s.dt := rfl
@[simp] theorem State.countDown_st (s : State) : s.countDown.st = countDownTimer s.st := rfl
@[simp] theorem State.countDown_fb (s : State) : s.countDown.fb = s.fb := rfl
@[simp] theorem State.countDown_redraw (s : State) : s.countDown.redraw = s.redraw := rfl
@[simp] theorem State.countDown_key (s : State) : s.countDown.key = s.key := rfl
@[simp] theorem State.countDown_awp (s : State) : s.countDown.awp = s.awp := rfl
@[simp] theorem State.countDown_awr (s : State) : s.countDown.awr = s.awr := rfl
@[simp] theorem State.countDown_mem (s : State) : s.countDown.mem = s.mem := rfl
@[simp] theorem State.countDown_draws (s : State) : s.countDown.draws = s.draws := rfl
@[simp] theorem State.countDown_gated (s : State) : s.countDown.gated = s.gated := rfl
@[simp] theorem State.advancePc_cfg (s : State) : s.advancePc.cfg = s.cfg := rfl
@[simp] theorem State.advancePc_v (s : State) : s.advancePc.v = s.v := rfl
@[simp] theorem State.advancePc_i (s : State) : s.advancePc.i = s.i := rfl
@[simp] theorem State.advancePc_pc (s : State) : s.advancePc.pc = s.pc + 2 := rfl
@[simp] theorem State.advancePc_stack (s : State) : s.advancePc.stack = s.stack := rfl
@[simp] theorem State.advancePc_sp (s : State) : s.advancePc.sp = s.sp := rfl
@[simp] theorem State.advancePc_dt (s : State) : s.advancePc.dt = s.dt := rfl
@[simp] theorem State.advancePc_st (s : State) : s.advancePc.st = s.st := rfl
@[simp] theorem State.advancePc_fb (s : State) : s.advancePc.fb = s.fb := rfl
@[simp] theorem State.advancePc_redraw (s : State) : s.advancePc.redraw = s.redraw := rfl
@[simp] theorem State.advancePc_key (s : State) : s.advancePc.key = s.key := rfl
@[simp] theorem State.advancePc_awp (s : State) : s.advancePc.awp = s.awp := rfl
@[simp] theorem State.advancePc_awr (s : State) : s.advancePc.awr = s.awr := rfl
@[simp] theorem State.advancePc_mem (s : State) : s.advancePc.mem = s.mem := rfl
@[simp] theorem State.advancePc_draws (s : State) : s.advancePc.draws = s.draws := rfl

/-- A timer's countdown as a number (R121): it stops at 0. -/
theorem countDownTimer_toNat (t : Byte) : (countDownTimer t).toNat = t.toNat - 1 := by
  unfold countDownTimer
  split
  · next h => subst h; rfl
  · next h =>
    have : t.toNat ≠ 0 := fun e => h (BitVec.eq_of_toNat_eq (by simpa using e))
    rw [BitVec.toNat_sub_of_le (by simp [BitVec.le_def]; omega)]
    rfl

/-- The flag byte as a number (R21). -/
@[simp] theorem flagByte_toNat (b : Bool) : (flagByte b).toNat = if b then 1 else 0 := by cases b <;> rfl

end Sys2Proof.Machine
end

