-- ==== Sys2Proof/Laws/Step.lean ====
section
/-! SUPPORT. What a cycle and a step can do, said once (40_cycle_driver.md R120, R126). -/

namespace Sys2Proof.Machine

@[simp] theorem rejectFault_invalidOpcode (w : Word) : rejectFault (.invalidOpcode w) = .invalidOpcode w := rfl
@[simp] theorem rejectFault_internalError (w : Word) : rejectFault (.internalError w) = .internalError w := rfl

/-- A gated cycle only counts down (R122). -/
theorem cycle_of_gated {s : State} (h : s.gated = true) : cycle s = .next s.countDown := if_pos h

/-- An open cycle whose fetch faults (R123). -/
theorem cycle_of_fetch_error {s : State} {r : Fault} (hg : s.gated = false) (hf : fetch s.countDown = .error r) :
    cycle s = .fault r s.countDown := by
  have hg' : s.countDown.gated = false := hg
  simp [cycle, hg', hf]

/-- An open cycle whose fetch succeeds dispatches the word on the advanced state (R120). -/
theorem cycle_of_fetch_ok {s : State} {w : Word} (hg : s.gated = false) (hf : fetch s.countDown = .ok w) :
    cycle s = dispatchWord w s.countDown.advancePc := by
  have hg' : s.countDown.gated = false := hg
  simp [cycle, hg', hf]

/-- The step of a cycle. -/
theorem step_eq (s : State) : step s = (cycle s).outcome := rfl

/-- Dispatch answers a next state iff the word decodes and its handler answers it. -/
theorem dispatchWord_eq_next {w : Word} {s t : State} :
    dispatchWord w s = .next t ↔ ∃ i, decodeWord s.cfg.decodeStrict w = .ok i ∧ exec i s = .next t := by
  unfold dispatchWord
  constructor
  · intro h
    split at h
    · cases h
    · next i hd =>
      split at h
      · next u he => cases h; exact ⟨i, hd, he⟩
      · cases h
      · cases h
  · rintro ⟨i, hd, he⟩
    simp [hd, he]

/-- Dispatch faults iff the word is rejected or its handler faults; the state it was given is left (R126). -/
theorem dispatchWord_eq_fault {w : Word} {s u : State} {r : Fault} :
    dispatchWord w s = .fault r u ↔
      u = s ∧ ((∃ e, decodeWord s.cfg.decodeStrict w = .error e ∧ r = rejectFault e) ∨
        ∃ i, decodeWord s.cfg.decodeStrict w = .ok i ∧ exec i s = .fault r) := by
  unfold dispatchWord
  constructor
  · intro h
    split at h
    · next e hd => cases h; exact ⟨rfl, .inl ⟨e, hd, rfl⟩⟩
    · next i hd =>
      split at h
      · cases h
      · next q he => cases h; exact ⟨rfl, .inr ⟨i, hd, he⟩⟩
      · cases h
  · rintro ⟨rfl, ⟨e, hd, rfl⟩ | ⟨i, hd, he⟩⟩
    · simp [hd]
    · simp [hd, he]

/-- Dispatch refuses iff the handler does. -/
theorem dispatchWord_eq_refused {w : Word} {s : State} {r : Refusal} :
    dispatchWord w s = .refused r ↔ ∃ i, decodeWord s.cfg.decodeStrict w = .ok i ∧ exec i s = .refused r := by
  unfold dispatchWord
  constructor
  · intro h
    split at h
    · cases h
    · next i hd =>
      split at h
      · cases h
      · cases h
      · next q he => cases h; exact ⟨i, hd, he⟩
  · rintro ⟨i, hd, he⟩
    simp [hd, he]

/-- Every way a step answers a next state: a gated cycle, or one fetched, decoded and executed instruction (R120, R128). -/
theorem step_next_cases {s t : State} (h : step s = .next t) :
    (s.gated = true ∧ t = s.countDown) ∨
      (s.gated = false ∧ ∃ w i, fetch s.countDown = .ok w ∧ decodeWord s.cfg.decodeStrict w = .ok i ∧
        exec i s.countDown.advancePc = .next t) := by
  rw [step_eq] at h
  cases hg : s.gated with
  | true =>
    rw [cycle_of_gated hg] at h
    cases h
    exact .inl ⟨rfl, rfl⟩
  | false =>
    cases hf : fetch s.countDown with
    | error r => rw [cycle_of_fetch_error hg hf] at h; cases h
    | ok w =>
      rw [cycle_of_fetch_ok hg hf] at h
      cases hd : dispatchWord w s.countDown.advancePc with
      | next u =>
        rw [hd] at h
        cases h
        obtain ⟨i, h1, h2⟩ := dispatchWord_eq_next.1 hd
        exact .inr ⟨rfl, w, i, rfl, h1, h2⟩
      | fault r u => rw [hd] at h; cases h
      | refused r => rw [hd] at h; cases h

/-- Every way a cycle faults, with the state left (R126, R247). -/
theorem cycle_fault_cases {s u : State} {r : Fault} (h : cycle s = .fault r u) :
    s.gated = false ∧
      ((fetch s.countDown = .error r ∧ u = s.countDown) ∨
        (u = s.countDown.advancePc ∧ ∃ w, fetch s.countDown = .ok w ∧
          ((∃ e, decodeWord s.cfg.decodeStrict w = .error e ∧ r = rejectFault e) ∨
            ∃ i, decodeWord s.cfg.decodeStrict w = .ok i ∧ exec i s.countDown.advancePc = .fault r))) := by
  cases hg : s.gated with
  | true => rw [cycle_of_gated hg] at h; cases h
  | false =>
    refine ⟨rfl, ?_⟩
    cases hf : fetch s.countDown with
    | error q => rw [cycle_of_fetch_error hg hf] at h; cases h; exact .inl ⟨rfl, rfl⟩
    | ok w =>
      rw [cycle_of_fetch_ok hg hf] at h
      obtain ⟨rfl, h2⟩ := dispatchWord_eq_fault.1 h
      exact .inr ⟨rfl, w, rfl, h2⟩

/-- A step's fault is its cycle's, with some state left. -/
theorem step_eq_fault {s : State} {r : Fault} : step s = .fault r ↔ ∃ u, cycle s = .fault r u := by
  rw [step_eq]
  cases cycle s <;> simp [CycleEnd.outcome]

/-- The fetch (R70, R123). -/
theorem fetch_of_ok {s : State} (h : ¬ spanFaults s.cfg s.pc.toNat 2) :
    fetch s = .ok (wordOfBytes (memRead s s.pc.toNat) (memRead s (s.pc.toNat + 1))) := if_neg h

theorem fetch_of_faults {s : State} (h : spanFaults s.cfg s.pc.toNat 2) :
    fetch s = .error (.addressFault (s.pc.toNat + 1)) := if_pos h

end Sys2Proof.Machine
end

