-- ==== Sys2Proof/Tests/Slice0.lean ====
section
/-! SUPPORT. The model's own tests. Expected results come from the vectors of 95_test_vectors.md (their id stands in the
test's comment) and from the encodings of 30_encoding.md R92 and R100. The last part gives, for every obligation with
hypotheses, a concrete state that meets them. -/

namespace Sys2Proof.Tests

open Sys2Proof.Machine

/-! ### Helpers -/

/-- The next state of an outcome, if it is one. -/
def nextOf : Result → Option State
  | .next t => some t
  | .fault _ => none
  | .refused _ => none

/-- The fault of an outcome, if it is one. -/
def faultOf : Result → Option Fault
  | .next _ => none
  | .fault r => some r
  | .refused _ => none

/-- The state a cycle's fault leaves, if it faults. -/
def leftOf : CycleEnd → Option State
  | .next _ => none
  | .fault _ u => some u
  | .refused _ => none

/-- One step, seen through `f`. -/
def after {α : Type} (s : State) (f : State → α) : Option α := (nextOf (step s)).map f

/-- The reset state with registers set and the word `w` where it fetches, 0x200. -/
def start (regs : List (Nibble × Byte)) (w : Word) : State :=
  placeWord (regs.foldl (fun s p => s.setV p.1 p.2) State.reset) w

/-- With other bytes in memory. -/
def poke (s : State) (a : Nat) (bs : List Byte) : State := s.storeBytes a bs

/-- With other parameters; the memory is listed against the reset contents, which the changed parameters leave alone. -/
def wrapping (s : State) : State := { s with cfg := { s.cfg with oobPolicy := .wrap } }
def masking (s : State) : State := { s with cfg := { s.cfg with keyIndexPolicy := .mask } }
def inPlace (s : State) : State := { s with cfg := { s.cfg with shiftMode := .vxInplace } }
def strictly (s : State) : State := { s with cfg := { s.cfg with decodeStrict := true } }

/-- With one key down. -/
def press (s : State) (k : Nibble) : State := hostMove (.setKey k true) s

/-! ### WellFormed: each check refuses an ill-formed term (R95, R97) -/

theorem test_wellFormed_cls : (Instr.cls 5).wellFormed true = false ∧ (Instr.cls 0).wellFormed true = true := by decide
theorem test_wellFormed_ret : (Instr.ret 0xA).wellFormed true = false ∧ (Instr.ret 0).wellFormed true = true := by decide
theorem test_wellFormed_seVxVy :
    (Instr.seVxVy 1 2 7).wellFormed true = false ∧ (Instr.seVxVy 1 2 0).wellFormed true = true := by decide
theorem test_wellFormed_sneVxVy :
    (Instr.sneVxVy 1 2 1).wellFormed true = false ∧ (Instr.sneVxVy 1 2 0).wellFormed true = true := by decide
theorem test_wellFormed_default_accepts_dontCare :
    (Instr.cls 5).wellFormed false = true ∧ (Instr.sneVxVy 1 2 1).wellFormed false = true := by decide

/-! ### Decoding: a word written out from R92 and R100 for every constructor -/

theorem test_decode_family0 : decodeWord false 0b0000_0000_1110_0000 = .ok (.cls 0) ∧
    decodeWord false 0b0000_0000_1110_1110 = .ok (.ret 0) ∧ decodeWord false 0b0000_0111_1110_0000 = .ok (.cls 7) := by
  decide
theorem test_decode_jp : decodeWord false 0b0001_1010_1011_1100 = .ok (.jp 0xABC) := by decide
theorem test_decode_call : decodeWord false 0b0010_0011_0100_0101 = .ok (.call 0x345) := by decide
theorem test_decode_seVxKk : decodeWord false 0b0011_1010_0010_1111 = .ok (.seVxKk 0xA 0x2F) := by decide
theorem test_decode_sneVxKk : decodeWord false 0b0100_0011_0010_1010 = .ok (.sneVxKk 3 0x2A) := by decide
theorem test_decode_seVxVy : decodeWord false 0b0101_1010_1011_0000 = .ok (.seVxVy 0xA 0xB 0) := by decide
theorem test_decode_ldVxKk : decodeWord false 0b0110_1010_0010_1111 = .ok (.ldVxKk 0xA 0x2F) := by decide
theorem test_decode_addVxKk : decodeWord false 0b0111_0001_1111_1110 = .ok (.addVxKk 1 0xFE) := by decide
theorem test_decode_family8 :
    decodeWord false 0b1000_1010_1011_0000 = .ok (.ldVxVy 0xA 0xB) ∧
    decodeWord false 0b1000_1010_1011_0001 = .ok (.orVxVy 0xA 0xB) ∧
    decodeWord false 0b1000_1010_1011_0010 = .ok (.andVxVy 0xA 0xB) ∧
    decodeWord false 0b1000_1010_1011_0011 = .ok (.xorVxVy 0xA 0xB) ∧
    decodeWord false 0b1000_1010_1011_0100 = .ok (.addVxVy 0xA 0xB) ∧
    decodeWord false 0b1000_1010_1011_0101 = .ok (.subVxVy 0xA 0xB) ∧
    decodeWord false 0b1000_1010_1011_0110 = .ok (.shrVxVy 0xA 0xB) ∧
    decodeWord false 0b1000_1010_1011_0111 = .ok (.subnVxVy 0xA 0xB) ∧
    decodeWord false 0b1000_1010_1011_1110 = .ok (.shlVxVy 0xA 0xB) := by decide
theorem test_decode_sneVxVy : decodeWord false 0b1001_1010_1011_0000 = .ok (.sneVxVy 0xA 0xB 0) := by decide
theorem test_decode_ldI : decodeWord false 0b1010_0010_1111_0000 = .ok (.ldI 0x2F0) := by decide
theorem test_decode_jpV0 : decodeWord false 0b1011_0011_0000_0100 = .ok (.jpV0 0x304) := by decide
theorem test_decode_rndVxKk : decodeWord false 0b1100_0011_0000_1111 = .ok (.rndVxKk 3 0x0F) := by decide
theorem test_decode_drw : decodeWord false 0b1101_0001_0010_0101 = .ok (.drw 1 2 5) := by decide
theorem test_decode_familyE : decodeWord false 0b1110_0101_1001_1110 = .ok (.skpVx 5) ∧
    decodeWord false 0b1110_0101_1010_0001 = .ok (.sknpVx 5) := by decide
theorem test_decode_familyF :
    decodeWord false 0b1111_0010_0000_0111 = .ok (.ldVxDt 2) ∧ decodeWord false 0b1111_0010_0000_1010 = .ok (.ldVxK 2) ∧
    decodeWord false 0b1111_0010_0001_0101 = .ok (.ldDtVx 2) ∧ decodeWord false 0b1111_0010_0001_1000 = .ok (.ldStVx 2) ∧
    decodeWord false 0b1111_0010_0001_1110 = .ok (.addIVx 2) ∧ decodeWord false 0b1111_0010_0010_1001 = .ok (.ldFVx 2) ∧
    decodeWord false 0b1111_0010_0011_0011 = .ok (.ldBVx 2) ∧ decodeWord false 0b1111_0010_0101_0101 = .ok (.ldMemVx 2) ∧
    decodeWord false 0b1111_0010_0110_0101 = .ok (.ldVxMem 2) := by decide

/-- Section 2.6: illegal words, and the don't-care bits under both values of DECODE_STRICT. -/
theorem test_decode_illegal :
    decodeWord false 0x0000 = .error (.invalidOpcode 0x0000) ∧ decodeWord false 0x0123 = .error (.invalidOpcode 0x0123) ∧
    decodeWord false 0x00EF = .error (.invalidOpcode 0x00EF) ∧ decodeWord false 0x8ABF = .error (.internalError 0x8ABF) ∧
    decodeWord false 0xE09F = .error (.invalidOpcode 0xE09F) ∧ decodeWord false 0xF134 = .error (.invalidOpcode 0xF134) ∧
    decodeWord true 0x0FEE = .error (.invalidOpcode 0x0FEE) ∧ decodeWord true 0x5AB7 = .error (.invalidOpcode 0x5AB7) ∧
    decodeWord false 0x5AB7 = .ok (.seVxVy 0xA 0xB 7) ∧ decodeWord true 0x9AB1 = .error (.invalidOpcode 0x9AB1) := by decide

/-- Bytes lie most significant first (R63), and fewer than two are no instruction. -/
theorem test_decode_bytes : decode false [0x12, 0x34, 0x56] = .ok (.jp 0x234, [0x56]) ∧
    decode false [0x12] = .error .truncated := by decide

/-- The table's numbering: `w` is the one 16-bit word. -/
theorem test_decodeTableWord : decodeTableWord 16 0x8AB7 = some (.subnVxVy 0xA 0xB) ∧ decodeTableWord 16 0 = none := by
  decide

/-- The placed word is the one fetched. -/
theorem test_withFetchWord : after (State.reset.withFetchWord 16 0x6A2F) (fun t => (t.getV 0xA, t.pc)) =
    some (0x2F, 0x202) := by decide

/-! ### One step of each instruction -/

/-- D1. -/
theorem test_cls : after { start [(15, 1)] 0x00E0 with fb := Vector.replicate 32 1 }
    (fun t => (t.cell 0, t.cell 64, t.redraw, t.getV 15)) = some (false, false, true, 1) := by decide
/-- F8: the stale slot stays. -/
theorem test_ret : after { start [] 0x00EE with sp := 2, stack := State.reset.stack.set 1 0x456 }
    (fun t => (t.pc, t.sp, t.stack[1])) = some (0x456, 1, 0x456) := by decide
/-- F7. -/
theorem test_ret_empty : faultOf (step (start [] 0x00EE)) = some (.internalError 0x00EE) ∧
    (leftOf (cycle (start [] 0x00EE))).map (fun u => (u.pc, u.sp)) = some (0x202, 0) := by decide
/-- F1. -/
theorem test_jp : after (start [] 0x1ABC) (·.pc) = some 0xABC := by decide
/-- F4, S5. -/
theorem test_call : after (start [] 0x2300) (fun t => (t.pc, t.sp, t.stack[0])) = some (0x300, 1, 0x202) := by decide
/-- F6, S10: `PC` is left at the instruction's address + 2 (C9). -/
theorem test_call_full : faultOf (step { start [] 0x2300 with sp := 16 }) = some (.internalError 0x2300) ∧
    (leftOf (cycle { start [] 0x2300 with sp := 16 })).map (fun u => (u.pc, u.sp)) = some (0x202, 16) := by decide
/-- F10, F11. -/
theorem test_seVxKk : after (start [(3, 0x2A)] 0x332A) (·.pc) = some 0x204 ∧
    after (start [(3, 0x2B)] 0x332A) (·.pc) = some 0x202 := by decide
/-- F12, F13. -/
theorem test_sneVxKk : after (start [(3, 0x2A)] 0x432A) (·.pc) = some 0x202 ∧
    after (start [(3, 0x2A)] 0x4300) (·.pc) = some 0x204 := by decide
/-- F14, F15. -/
theorem test_seVxVy : after (start [(1, 7), (2, 7)] 0x5120) (·.pc) = some 0x204 ∧
    after (start [(1, 7), (2, 8)] 0x5120) (·.pc) = some 0x202 := by decide
/-- F17. -/
theorem test_seVxVy_dontCare : after (start [(1, 7), (2, 7)] 0x5127) (·.pc) = some 0x204 ∧
    faultOf (step (strictly (start [(1, 7), (2, 7)] 0x5127))) = some (.invalidOpcode 0x5127) := by decide
/-- F18, F19. -/
theorem test_sneVxVy : after (start [(1, 7), (2, 8)] 0x9120) (·.pc) = some 0x204 ∧
    after (start [(1, 7), (2, 7)] 0x9120) (·.pc) = some 0x202 := by decide
/-- F22, F23. -/
theorem test_jpV0 : after (start [(0, 0xFF)] 0xBFFF) (·.pc) = some 0x10FE ∧
    after (start [(2, 0x55)] 0xB2F0) (·.pc) = some 0x2F0 := by decide
/-- A1. -/
theorem test_ldVxKk : after (start [] 0x6A2F) (·.getV 0xA) = some 0x2F := by decide
/-- A3: no flag. -/
theorem test_addVxKk : after (start [(1, 0xFE), (15, 1)] 0x7103) (fun t => (t.getV 1, t.getV 15)) = some (1, 1) := by
  decide
/-- A6. -/
theorem test_ldVxVy : after (start [(2, 0x55), (15, 1)] 0x8120) (fun t => (t.getV 1, t.getV 15)) = some (0x55, 1) := by
  decide
/-- A7. -/
theorem test_orVxVy : after (start [(1, 0x0F), (2, 0xF0), (15, 1)] 0x8121) (fun t => (t.getV 1, t.getV 15)) =
    some (0xFF, 0) := by decide
/-- V2: VF is the destination, and the flag stands. -/
theorem test_orVxVy_flag : after (start [(15, 0x0F), (1, 0xF0)] 0x8F11) (·.getV 15) = some 0 := by decide
/-- A8. -/
theorem test_andVxVy : after (start [(1, 0x3C), (2, 0x0F), (15, 1)] 0x8122) (fun t => (t.getV 1, t.getV 15)) =
    some (0x0C, 0) := by decide
/-- A9. -/
theorem test_xorVxVy : after (start [(1, 0xFF), (2, 0x0F), (15, 1)] 0x8123) (fun t => (t.getV 1, t.getV 15)) =
    some (0xF0, 0) := by decide
/-- A10. -/
theorem test_addVxVy : after (start [(1, 0xC8), (2, 0x64)] 0x8124) (fun t => (t.getV 1, t.getV 15)) =
    some (0x2C, 1) := by decide
/-- V4, V5: VF as destination, and as source. -/
theorem test_addVxVy_flag : after (start [(15, 0xF0), (1, 0x20)] 0x8F14) (·.getV 15) = some 1 ∧
    after (start [(1, 0xF0), (15, 0x20)] 0x81F4) (fun t => (t.getV 1, t.getV 15)) = some (0x10, 1) := by decide
/-- A15, A17. -/
theorem test_subVxVy : after (start [(1, 5), (2, 0xA), (15, 1)] 0x8125) (fun t => (t.getV 1, t.getV 15)) =
    some (0xFB, 0) ∧ after (start [(1, 7), (2, 7)] 0x8125) (fun t => (t.getV 1, t.getV 15)) = some (0, 1) := by decide
/-- V8, V9. -/
theorem test_subVxVy_flag : after (start [(15, 9), (1, 4)] 0x8F15) (·.getV 15) = some 5 ∧
    after (start [(1, 9), (15, 4)] 0x81F5) (fun t => (t.getV 1, t.getV 15)) = some (5, 1) := by decide
/-- A20, A23: under both values of SHIFT_MODE. -/
theorem test_shrVxVy : after (start [(1, 0xAA), (2, 7)] 0x8126) (fun t => (t.getV 1, t.getV 15, t.getV 2)) =
    some (3, 1, 7) ∧ after (inPlace (start [(1, 0xAA), (2, 7), (15, 1)] 0x8126))
      (fun t => (t.getV 1, t.getV 15, t.getV 2)) = some (0x55, 0, 7) := by decide
/-- V11, V12. -/
theorem test_shrVxVy_flag : after (start [(1, 7)] 0x8F16) (·.getV 15) = some 3 ∧
    after (start [(15, 7)] 0x81F6) (fun t => (t.getV 1, t.getV 15)) = some (3, 1) := by decide
/-- A24, A25. -/
theorem test_subnVxVy : after (start [(1, 5), (2, 0xA)] 0x8127) (fun t => (t.getV 1, t.getV 15)) = some (5, 1) ∧
    after (start [(1, 0xA), (2, 5), (15, 1)] 0x8127) (fun t => (t.getV 1, t.getV 15)) = some (0xFB, 0) := by decide
/-- V13, V14. -/
theorem test_subnVxVy_flag : after (start [(15, 4), (1, 9)] 0x8F17) (·.getV 15) = some 5 ∧
    after (start [(1, 4), (15, 9)] 0x81F7) (fun t => (t.getV 1, t.getV 15)) = some (5, 1) := by decide
/-- A27, A30. -/
theorem test_shlVxVy : after (start [(2, 0xC1)] 0x812E) (fun t => (t.getV 1, t.getV 15)) = some (0x82, 1) ∧
    after (inPlace (start [(1, 0x81)] 0x812E)) (fun t => (t.getV 1, t.getV 15, t.getV 2)) = some (2, 1, 0) := by decide
/-- V15, V16. -/
theorem test_shlVxVy_flag : after (start [(1, 0xC1)] 0x8F1E) (·.getV 15) = some 0x82 ∧
    after (start [(15, 0xC1)] 0x81FE) (fun t => (t.getV 1, t.getV 15)) = some (0x82, 1) := by decide
/-- M1. -/
theorem test_ldI : after { start [] 0xA2F0 with i := 0xFFFF } (·.i) = some 0x2F0 := by decide
/-- M3, M4. -/
theorem test_addIVx : after { start [(2, 5)] 0xF21E with i := 0xFFE } (fun t => (t.i, t.getV 15)) = some (0x1003, 0) ∧
    after { start [(2, 2)] 0xF21E with i := 0xFFFF } (·.i) = some 1 := by decide
/-- M5, M8. -/
theorem test_ldFVx : after (start [(4, 0xA)] 0xF429) (·.i) = some 0x82 ∧
    after (start [(4, 0x10)] 0xF429) (·.i) = some 0xA0 := by decide
/-- M10. -/
theorem test_ldBVx : after { start [(0, 0x7B)] 0xF033 with i := 0x300 }
    (fun t => (t.byteAt 0x300, t.byteAt 0x301, t.byteAt 0x302, t.i)) = some (1, 2, 3, 0x300) := by decide
/-- M15, under both values of OOB_POLICY. -/
theorem test_ldBVx_edge : faultOf (step { start [(0, 9)] 0xF033 with i := 0xFFE }) = some (.addressFault 0x1000) ∧
    after (wrapping { start [(0, 9)] 0xF033 with i := 0xFFE }) (fun t => (t.byteAt 0xFFF, t.byteAt 0)) = some (0, 9) := by
  decide
/-- M16. -/
theorem test_ldMemVx : after { start [(0, 0x11), (1, 0x22), (2, 0x33), (3, 0x44)] 0xF255 with i := 0x400 }
    (fun t => (t.byteAt 0x400, t.byteAt 0x401, t.byteAt 0x402, t.byteAt 0x403, t.i)) =
      some (0x11, 0x22, 0x33, 0, 0x403) := by decide
/-- M17, M19. -/
theorem test_ldMemVx_edge : after { start [(0, 0x7E)] 0xF055 with i := 0xFFF } (fun t => (t.byteAt 0xFFF, t.i)) =
    some (0x7E, 0x1000) ∧ faultOf (step { start [] 0xFF55 with i := 0xFF1 }) = some (.addressFault 0x1000) := by decide
/-- M20. -/
theorem test_ldVxMem : after { poke (start [(3, 0x99)] 0xF265) 0x400 [0x11, 0x22, 0x33, 0x44] with i := 0x400 }
    (fun t => (t.getV 0, t.getV 2, t.getV 3, t.i)) = some (0x11, 0x33, 0x99, 0x403) := by decide
/-- M22, under both values of OOB_POLICY. -/
theorem test_ldVxMem_edge : faultOf (step { start [] 0xF065 with i := 0x1000 }) = some (.addressFault 0x1000) ∧
    after (wrapping { poke (start [] 0xF065) 0 [0x5A] with i := 0x1000 }) (fun t => (t.getV 0, t.i)) =
      some (0x5A, 0x1001) := by decide
/-- D5: wrapped at both edges, one lit cell hit; each cell `r*64 + c` of the framebuffer. -/
theorem test_drw : after { poke (start [(1, 0x3E), (2, 0x1F)] 0xD121) 0x300 [0x81] with
      i := 0x300, fb := Frame.flip (Frame.flip Frame.clear 1989) 10 }
    (fun t => (t.cell 2046, t.cell 1989, t.cell 10, t.getV 15, t.redraw)) = some (true, false, true, 1, true) := by decide
/-- D11: VF gives the column and is then cleared. -/
theorem test_drw_flag : after { poke (start [(15, 5), (1, 2)] 0xDF11) 0x300 [0x80] with i := 0x300 }
    (fun t => (t.cell 133, t.cell 132, t.getV 15)) = some (true, false, 0) := by decide
/-- K1, K2. -/
theorem test_skpVx : after (press (start [(5, 0xA)] 0xE59E) 0xA) (·.pc) = some 0x204 ∧
    after (start [(5, 0xA)] 0xE59E) (·.pc) = some 0x202 := by decide
/-- K5, under both values of KEY_INDEX_POLICY. -/
theorem test_skpVx_index : faultOf (step (press (start [(5, 0x10)] 0xE59E) 0)) = some (.keyIndexFault 0x10) ∧
    after (masking (press (start [(5, 0x10)] 0xE59E) 0)) (·.pc) = some 0x204 := by decide
/-- K3, K4. -/
theorem test_sknpVx : after (start [(5, 0xA)] 0xE5A1) (·.pc) = some 0x204 ∧
    after (press (start [(5, 0xA)] 0xE5A1) 0xA) (·.pc) = some 0x202 := by decide
/-- K6. -/
theorem test_sknpVx_index : faultOf (step (start [(5, 0xFF)] 0xE5A1)) = some (.keyIndexFault 0xFF) ∧
    after (masking (press (start [(5, 0xFF)] 0xE5A1) 0xF)) (·.pc) = some 0x202 := by decide
/-- K8: the decrement precedes the read. -/
theorem test_ldVxDt : after { start [] 0xF307 with dt := 0x10 } (fun t => (t.dt, t.getV 3)) = some (0x0F, 0x0F) := by
  decide
/-- K13: the advance is undone. -/
theorem test_ldVxK_none : after (start [(2, 0x55)] 0xF20A) (fun t => (t.awp, t.awr, t.pc, t.getV 2)) =
    some (true, false, 0x200, 0x55) := by decide
/-- K15: the least key. -/
theorem test_ldVxK_least : after (press (press (start [] 0xF20A) 9) 3) (fun t => (t.awp, t.awr, t.pc, t.getV 2)) =
    some (false, true, 0x202, 3) := by decide
/-- K10. -/
theorem test_ldDtVx : after { start [(4, 0x3C)] 0xF415 with dt := 5 } (·.dt) = some 0x3C := by decide
/-- K11, K12. -/
theorem test_ldStVx : after (start [(4, 2)] 0xF418) (fun t => (t.st, t.shouldBeep)) = some (2, true) ∧
    after { start [] 0xF418 with st := 9 } (fun t => (t.st, t.shouldBeep)) = some (0, false) := by decide
/-- A32: the draw is counted although the mask is 0; and whatever the byte is, `x & 0` is 0. -/
theorem test_rndVxKk : after (start [(3, 0x77)] 0xC300) (fun t => (t.draws, t.pc)) = some (1, 0x202) := by decide

/-! ### The cycle, the host -/

/-- K17, K18: a gated cycle, also where a fetch would fault. -/
theorem test_gated : after { State.reset with awr := true, dt := 5, st := 1, pc := 0x208 } (fun t => (t.dt, t.st, t.pc)) =
    some (4, 0, 0x208) ∧ after { State.reset with awp := true, pc := 0xFFFF } (·.pc) = some 0xFFFF := by decide
/-- X1: a fetch fault leaves `PC`, the countdown has run. -/
theorem test_fetch_fault : faultOf (step { State.reset with pc := 0xFFF, dt := 3 }) = some (.addressFault 0x1000) ∧
    (leftOf (cycle { State.reset with pc := 0xFFF, dt := 3 })).map (fun u => (u.pc, u.dt)) = some (0xFFF, 2) := by decide
/-- X2, X4: the last legal fetch address; an odd one. -/
theorem test_fetch_edges : after { poke State.reset 0xFFE [0x12, 0x00] with pc := 0xFFE } (·.pc) = some 0x200 ∧
    after { poke State.reset 0x201 [0x6A, 0x2F] with pc := 0x201 } (fun t => (t.getV 0xA, t.pc)) = some (0x2F, 0x203) := by
  decide
/-- X5: an illegal word leaves `PC` advanced; and the first step from reset, with nothing loaded, is this one. -/
theorem test_illegal : faultOf (step { State.reset with st := 1 }) = some (.invalidOpcode 0) ∧
    (leftOf (cycle { State.reset with st := 1 })).map (fun u => (u.pc, u.st)) = some (0x202, 0) := by decide
/-- F24: `PC` wraps modulo 65536. -/
theorem test_pc_wraps : after (wrapping { poke State.reset 0xFFC [0x30, 0x00] with pc := 0xFFFC }) (·.pc) = some 0 := by
  decide
/-- K19 to K24. -/
theorem test_host_moves :
    (hostMove .keyDownEdge { State.reset with awp := true }).awp = false ∧
    (hostMove .keyDownEdge { State.reset with awr := true }).awr = true ∧
    (hostMove .keyUpEdge { State.reset with awr := true }).awr = false ∧
    (hostMove .keyUpEdge { State.reset with awp := true }).awp = true ∧
    (hostMove (.setKey 4 true) { State.reset with awp := true }).awp = true ∧
    (hostMove (.setKey 4 true) State.reset).keyDown 4 = true ∧
    (hostMove .clearRedraw { State.reset with redraw := true }).redraw = false := by decide
/-- The default font, R36: glyphs 0 and F. -/
theorem test_reset_font : (State.reset.loadBytes 0x50 5 = [0xF0, 0x90, 0x90, 0x90, 0xF0]) ∧
    State.reset.loadBytes 0x9B 5 = [0xF0, 0x80, 0xF0, 0x80, 0x80] ∧ State.reset.byteAt 0xA0 = 0 := by decide
/-- P7's image, loaded. -/
theorem test_loadRom : (nextOf (loadRom [0xA2, 0x06] State.reset)).map (fun t => (t.byteAt 0x200, t.byteAt 0x201, t.pc)) =
    some (0xA2, 0x06, 0x200) := by decide

/-! ### Witnesses: for each obligation with hypotheses, and each of its clauses, a state that meets them -/

theorem nextOf_eq_some {r : Result} {t : State} (h : nextOf r = some t) : r = .next t := by
  cases r <;> simp_all [nextOf]

/-- An outcome that a check accepts is a next state that the check accepts. -/
theorem next_of_any {r : Result} {P : State → Bool} (h : (nextOf r).any P = true) : ∃ t, r = .next t ∧ P t = true := by
  cases r <;> simp_all [nextOf]

theorem next_of_isSome {r : Result} (h : (nextOf r).isSome = true) : ∃ t, r = .next t := by
  cases r <;> simp_all [nextOf]

/-- A cycle's fault with the state left. -/
theorem fault_of_isSome {c : CycleEnd} (h : (leftOf c).isSome = true) : ∃ r u, c = .fault r u := by
  cases c <;> simp_all [leftOf]

theorem cycle_of_step {s t : State} (h : step s = .next t) : cycle s = .next t := by
  unfold step at h
  cases hc : cycle s <;> rw [hc] at h <;> cases h
  rfl

theorem executes_of {s : State} {i : Instr} (w : Word) (hg : s.gated = false) (hf : fetch s.countDown = .ok w)
    (hd : decodeWord s.cfg.decodeStrict w = .ok i) : Executes s i := ⟨hg, w, hf, hd⟩

/-- A cycle executes one instruction. -/
theorem not_executes {s : State} {i j : Instr} (hi : Executes s i) (h : i ≠ j) : ¬ Executes s j := by
  intro hj
  obtain ⟨-, w, h1, h2⟩ := hi
  obtain ⟨-, w', h1', h2'⟩ := hj
  rw [h1] at h1'
  cases h1'
  rw [h2] at h2'
  cases h2'
  exact h rfl

theorem witness_DecodeOfEncodeGivesInstruction :
    (Instr.cls 0).wellFormed true = true ∧ (Instr.ret 0xA).wellFormed false = true ∧
      (Instr.drw 15 15 15).wellFormed true = true := by decide
theorem witness_EncodeOfDecodeGivesWord :
    decodeWord true 0x8AB7 = .ok (.subnVxVy 0xA 0xB) ∧ decodeWord false 0x9AB1 = .ok (.sneVxVy 0xA 0xB 1) := by decide
theorem witness_IllegalWordsAreExactlyTheUnmatchedCodes :
    decodeWord true 0x0FEE = .error (.invalidOpcode 0x0FEE) ∧ decodeWord true 0x8AB8 = .error (.internalError 0x8AB8) := by
  decide
theorem witness_DecoderFollowsTheOpcodeMap :
    (0x05E0 : Word) &&& (Instr.cls 0).row.maskOf false = (Instr.cls 0).row.pattern ∧
      ¬ (0x05E0 : Word) &&& (Instr.cls 0).row.maskOf true = (Instr.cls 0).row.pattern := by decide

theorem witness_StepRunsTheDecodedInstruction :
    ∃ (s : State) (i : Instr), s.awp = false ∧ s.awr = false ∧ ¬ spanFaults s.cfg s.pc.toNat 2 ∧
      decode s.cfg.decodeStrict (s.loadBytes s.pc.toNat 2) = .ok (i, []) :=
  ⟨{ poke State.reset 0xFFE [0x6A, 0x2F] with pc := 0xFFE }, .ldVxKk 0xA 0x2F, by decide, by decide, by decide, by decide⟩
theorem witness_KeyWaitGateOnlyCountsTimersDown :
    ({ State.reset with awp := true } : State).awp = true ∧ ({ State.reset with awr := true } : State).awr = true := by decide

theorem witness_TimersCountDownOncePerCycle_plain :
    ∃ s t, cycle s = .next t ∧ (∀ x, ¬ Executes s (.ldDtVx x)) ∧ ∀ x, ¬ Executes s (.ldStVx x) := by
  have hE : Executes (start [] 0x1200) (.jp 0x200) := executes_of 0x1200 (by decide) (by decide) (by decide)
  obtain ⟨t, ht⟩ := next_of_isSome (r := step (start [] 0x1200)) (by decide)
  exact ⟨_, t, cycle_of_step ht, fun x => not_executes hE (by simp), fun x => not_executes hE (by simp)⟩
theorem witness_TimersCountDownOncePerCycle_loads :
    (∃ s t, cycle s = .next t ∧ Executes s (.ldDtVx 4)) ∧ (∃ s t, cycle s = .next t ∧ Executes s (.ldStVx 4)) ∧
      (∃ s t, cycle s = .next t ∧ Executes s (.ldVxDt 3)) := by
  obtain ⟨t, ht⟩ := next_of_isSome (r := step (start [] 0xF415)) (by decide)
  obtain ⟨u, hu⟩ := next_of_isSome (r := step (start [] 0xF418)) (by decide)
  obtain ⟨w, hw⟩ := next_of_isSome (r := step (start [] 0xF307)) (by decide)
  exact ⟨⟨_, t, cycle_of_step ht, executes_of 0xF415 (by decide) (by decide) (by decide)⟩,
    ⟨_, u, cycle_of_step hu, executes_of 0xF418 (by decide) (by decide) (by decide)⟩,
    ⟨_, w, cycle_of_step hw, executes_of 0xF307 (by decide) (by decide) (by decide)⟩⟩
/-- A fault of the fetch, and one of decode. -/
theorem witness_FaultLeavesOnlyTimersAndAdvancedPc :
    (∃ r u, cycle { State.reset with pc := 0xFFF } = .fault r u) ∧ ∃ r u, cycle State.reset = .fault r u :=
  ⟨fault_of_isSome (by decide), fault_of_isSome (by decide)⟩
theorem witness_FetchPastTheEndFaults :
    (∃ s : State, s.awp = false ∧ s.awr = false ∧ s.cfg.oobPolicy = .fault ∧ 4094 < s.pc.toNat ∧ s.pc = 0xFFF) ∧
      ∃ s : State, s.awp = false ∧ s.awr = false ∧ s.cfg.oobPolicy = .fault ∧ 4094 < s.pc.toNat ∧ s.pc = 0xFFFF :=
  ⟨⟨{ State.reset with pc := 0xFFF }, by decide⟩, ⟨{ State.reset with pc := 0xFFFF }, by decide⟩⟩
theorem witness_HandlersFaultExactlyAsListed :
    handlerFault { State.reset with i := 0xFFB } (.drw 0 0 5) = none ∧
      handlerFault { State.reset with i := 0xFFC } (.drw 0 0 5) = some (.addressFault 0x1000) ∧
      handlerFault { State.reset with i := 0xFFFF } (.drw 0 0 0) = none ∧
      handlerFault State.reset (.ret 0) = some (.internalError 0x00EE) ∧
      handlerFault { State.reset with sp := 16 } (.call 0x300) = some (.internalError 0x2300) ∧
      handlerFault (State.reset.setV 5 16) (.skpVx 5) = some (.keyIndexFault 16) ∧
      handlerFault (State.reset.setV 5 15) (.skpVx 5) = none := by decide
/-- Each way a step faults: fetch, the two kinds of rejected word, handler. -/
theorem witness_StepFaultsExactlyInTheListedOrder :
    faultOf (step { State.reset with pc := 0xFFF }) = some (.addressFault 0x1000) ∧
      faultOf (step State.reset) = some (.invalidOpcode 0) ∧
      faultOf (step (start [] 0x8128)) = some (.internalError 0x8128) ∧
      faultOf (step (start [] 0x00EE)) = some (.internalError 0x00EE) := by decide

theorem witness_StepKeepsInvariant : ∃ s t, StateInv s ∧ step s = .next t ∧ s.mem ≠ [] := by
  obtain ⟨t, ht⟩ := next_of_isSome (r := step { start [(0, 0x7B)] 0xF033 with i := 0x300 }) (by decide)
  exact ⟨_, t, ⟨by decide, by decide⟩, ht, by decide⟩
/-- A cycle, and each kind of move, from states in which it changes something. -/
theorem witness_EveryEventKeepsInvariant :
    (∃ s t, StateInv s ∧ runEvent .cycle s = .next t ∧ s.mem ≠ []) ∧
      (∃ s t, StateInv s ∧ runEvent (.move (.setKey 15 true)) s = .next t) ∧
      (∃ s t, StateInv s ∧ runEvent (.move .keyDownEdge) s = .next t ∧ s.awp = true) ∧
      (∃ s t, StateInv s ∧ runEvent (.move .keyUpEdge) s = .next t ∧ s.awr = true) ∧
      ∃ s t, StateInv s ∧ runEvent (.move .clearRedraw) s = .next t ∧ s.redraw = true := by
  obtain ⟨t, ht⟩ := next_of_isSome (r := runEvent .cycle { start [(0, 0x7B)] 0xF033 with i := 0x300 }) (by decide)
  exact ⟨⟨_, t, ⟨by decide, by decide⟩, ht, by decide⟩,
    ⟨State.reset, _, ⟨by decide, by decide⟩, rfl⟩,
    ⟨{ State.reset with awp := true }, _, ⟨by decide, by decide⟩, rfl, rfl⟩,
    ⟨{ State.reset with awr := true }, _, ⟨by decide, by decide⟩, rfl, rfl⟩,
    ⟨{ State.reset with redraw := true }, _, ⟨by decide, by decide⟩, rfl, rfl⟩⟩
theorem witness_LaunchHasInvariant : ∃ s, loadRom [0x12, 0x00] (State.resetWith defaultConfig) = .next s :=
  next_of_isSome (by decide)
theorem witness_EveryScheduleFromLaunchKeepsInvariant :
    ∃ s t, loadRom [0x12, 0x00] (State.resetWith defaultConfig) = .next s ∧
      runEvents [.cycle, .move (.setKey 7 true), .move .keyDownEdge, .cycle] s = .next t := by
  obtain ⟨s, hs, hP⟩ := next_of_any (r := loadRom [0x12, 0x00] (State.resetWith defaultConfig))
    (P := fun s => (nextOf (runEvents [.cycle, .move (.setKey 7 true), .move .keyDownEdge, .cycle] s)).isSome) (by decide)
  obtain ⟨t, ht⟩ := next_of_isSome hP
  exact ⟨s, t, hs, ht⟩
/-- For every whole-machine rule over steps: one step of each kind of instruction the rules name, doing what they name. -/
theorem witness_StepChangesNoParameterAndNoKey : ∃ t, step (press (start [] 0x1200) 5) = .next t :=
  next_of_isSome (by decide)
theorem witness_StackChangesOnlyByCallAndRet :
    (∃ t, step (start [] 0x2300) = .next t ∧ decide (t.sp = 1) = true) ∧
      (∃ t, step { start [] 0x00EE with sp := 16 } = .next t ∧ decide (t.sp = 15) = true) ∧
      (∃ t, step (start [] 0x1200) = .next t ∧ decide (t.sp = 0) = true) :=
  ⟨next_of_any (by decide), next_of_any (by decide), next_of_any (by decide)⟩
theorem witness_DisplayChangesOnlyByClsAndDrw :
    (∃ t, step (start [] 0x00E0) = .next t ∧ t.redraw = true) ∧ (∃ t, step (start [] 0xD011) = .next t ∧ t.redraw = true) ∧
      (∃ t, step (start [] 0x1200) = .next t ∧ (!t.redraw) = true) :=
  ⟨next_of_any (by decide), next_of_any (by decide), next_of_any (by decide)⟩
/-- CLS and DRW in a state in which no cell changes value. -/
theorem witness_DisplayChangesOnlyByClsAndDrw_executes :
    (∃ s t, step s = .next t ∧ Executes s (.cls 0) ∧ s.redraw = false) ∧
      (∃ s t, step s = .next t ∧ Executes s (.drw 0 1 0) ∧ s.redraw = false) ∧
      ∃ s t, step s = .next t ∧ s.redraw = true := by
  obtain ⟨t, ht⟩ := next_of_isSome (r := step (start [] 0x00E0)) (by decide)
  obtain ⟨u, hu⟩ := next_of_isSome (r := step (start [] 0xD010)) (by decide)
  obtain ⟨w, hw⟩ := next_of_isSome (r := step { start [] 0x1200 with redraw := true }) (by decide)
  exact ⟨⟨_, t, ht, executes_of 0x00E0 (by decide) (by decide) (by decide), rfl⟩,
    ⟨_, u, hu, executes_of 0xD010 (by decide) (by decide) (by decide), rfl⟩, ⟨_, w, hw, rfl⟩⟩
theorem witness_KeyWaitFlagsAreOnlySetByLoadKey :
    (∃ t, step (start [] 0xF20A) = .next t ∧ t.awp = true) ∧ (∃ t, step (press (start [] 0xF20A) 15) = .next t ∧ t.awr = true) ∧
      (∃ t, step (start [] 0x1200) = .next t ∧ (!t.awp && !t.awr) = true) :=
  ⟨next_of_any (by decide), next_of_any (by decide), next_of_any (by decide)⟩
theorem witness_MemoryChangesOnlyByLoadBAndStoreRegisters :
    (∃ t, step { start [(0, 9)] 0xF033 with i := 0xFFD } = .next t ∧ decide (t.byteAt 0xFFF = 9) = true) ∧
      (∃ t, step { start [(0, 9)] 0xF055 with i := 0xFFF } = .next t ∧ decide (t.byteAt 0xFFF = 9) = true) ∧
      (∃ t, step (start [] 0x1200) = .next t ∧ decide (t.byteAt 0xFFF = 0) = true) :=
  ⟨next_of_any (by decide), next_of_any (by decide), next_of_any (by decide)⟩
theorem witness_FlagRegisterChangesOnlyByListedWriters :
    ∃ s t i, step s = .next t ∧ Executes s i ∧ t.getV 15 ≠ s.getV 15 := by
  obtain ⟨t, ht, hP⟩ := next_of_any (r := step (start [(1, 0xC8), (2, 0x64)] 0x8124))
    (P := fun t => t.getV 15 == 1) (by decide)
  refine ⟨_, t, .addVxVy 1 2, ht, executes_of 0x8124 (by decide) (by decide) (by decide), ?_⟩
  rw [eq_of_beq hP]
  decide
theorem witness_IndexChangesOnlyByListedWriters : ∃ s t, step s = .next t ∧ t.i ≠ s.i := by
  obtain ⟨t, ht, hP⟩ := next_of_any (r := step (start [] 0xA2F0)) (P := fun t => t.i == 0x2F0) (by decide)
  refine ⟨_, t, ht, ?_⟩
  rw [eq_of_beq hP]
  decide

/-- Word 0AEE; depths 1, 16 and 0. -/
theorem witness_RetPopsOrFaults : (famField 0x0AEE = 0x0 ∧ kkField 0x0AEE = 0xEE ∧ xField 0x0AEE = 0xA) ∧
    (Instr.ret 0xA).wellFormed State.reset.cfg.decodeStrict = true ∧ 0 < ({ State.reset with sp := 1 } : State).sp.val ∧
    0 < ({ State.reset with sp := 16 } : State).sp.val ∧ State.reset.sp.val = 0 := by decide
theorem witness_JumpLoadsTarget : famField 0x1FFF = 0x1 ∧ nnnField 0x1FFF = 0xFFF := by decide
/-- Depths 0, 15 and 16. -/
theorem witness_CallPushesOrFaults : (famField 0x2300 = 0x2 ∧ nnnField 0x2300 = 0x300) ∧ State.reset.sp.val < 16 ∧ ({ State.reset with sp := 15 } : State).sp.val < 16 ∧
    ({ State.reset with sp := 16 } : State).sp.val = 16 := by decide
theorem witness_RetAfterCallResumesAtReturnAddress :
    ∃ s t u : State, exec (.call 0x300) s = .next t ∧ u.sp = t.sp ∧ u.stack = t.stack := by
  obtain ⟨t, ht⟩ := next_of_isSome (r := exec (.call 0x300) { State.reset with sp := 15 }) (by decide)
  exact ⟨_, t, { t with i := 7 }, ht, rfl, rfl⟩
theorem witness_ImmediateSkipsCompare : (famField 0x3F2A = 0x3 ∧ xField 0x3F2A = 0xF ∧ kkField 0x3F2A = 0x2A) ∧
    famField 0x432A = 0x4 ∧ xField 0x432A = 3 ∧ kkField 0x432A = 0x2A := by decide
/-- Low nibbles 7 and 0. -/
theorem witness_RegisterSkipsCompare :
    (famField 0x5127 = 0x5 ∧ xField 0x5127 = 1 ∧ yField 0x5127 = 2 ∧ nField 0x5127 = 7) ∧
    famField 0x9120 = 0x9 ∧ xField 0x9120 = 1 ∧ yField 0x9120 = 2 ∧ nField 0x9120 = 0 := by decide
theorem witness_PlainLoadsAndAddImmediate : (famField 0x6A2F = 0x6 ∧ xField 0x6A2F = 0xA ∧ kkField 0x6A2F = 0x2F) ∧
    (famField 0x7FFF = 0x7 ∧ xField 0x7FFF = 0xF ∧ kkField 0x7FFF = 0xFF) ∧
    famField 0x8120 = 0x8 ∧ nField 0x8120 = 0 ∧ xField 0x8120 = 1 ∧ yField 0x8120 = 2 := by decide
/-- The logic instructions' clause for registers other than VF, and each register's place. -/
theorem witness_LogicOperationsClearFlag : (14 : Nibble) ≠ 15 ∧ (0 : Nibble) ≠ 15 := by decide
theorem witness_ShiftsReportTheBitShiftedOut :
    (∃ (s : State) (b : Byte), b = (if s.cfg.shiftMode = .vySource then s.getV 2 else s.getV 1) ∧ s.cfg.shiftMode = .vySource) ∧
      ∃ (s : State) (b : Byte), b = (if s.cfg.shiftMode = .vySource then s.getV 2 else s.getV 1) ∧
        s.cfg.shiftMode = .vxInplace :=
  ⟨⟨State.reset, 0, by decide⟩, ⟨inPlace State.reset, 0, by decide⟩⟩

theorem witness_RandomDrawsOneByteAndMasks : (famField 0xC30F = 0xC ∧ xField 0xC30F = 3 ∧ kkField 0xC30F = 0x0F) ∧
    (4 : Nibble) ≠ 3 := by decide
theorem witness_IndexLoads : (famField 0xAFFF = 0xA ∧ nnnField 0xAFFF = 0xFFF) ∧
    famField 0xF429 = 0xF ∧ kkField 0xF429 = 0x29 ∧ xField 0xF429 = 4 := by decide
/-- The last legal base, the first illegal one, and the same under `wrap`. -/
theorem witness_StoreDecimalDigits : ¬ spanFaults defaultConfig 0xFFD 3 ∧ spanFaults defaultConfig 0xFFE 3 ∧
    ¬ spanFaults (wrapping State.reset).cfg 0xFFFF 3 := by decide
theorem witness_StoreRegisters : ¬ spanFaults defaultConfig 0xFF0 16 ∧ spanFaults defaultConfig 0xFF1 16 ∧
    ¬ spanFaults defaultConfig 0xFFF 1 ∧ spanFaults defaultConfig 0x1000 1 := by decide
theorem witness_LoadRegisters : ¬ spanFaults defaultConfig 0xFF0 16 ∧ spanFaults defaultConfig 0xFF1 16 ∧
    ¬ spanFaults (wrapping State.reset).cfg 0x1000 1 := by decide
theorem witness_StoreThenLoadRegistersRoundTrips : ∃ s t : State, exec (.ldMemVx 15) s = .next t ∧ s.i = 0xFF0 := by
  obtain ⟨t, ht⟩ := next_of_isSome (r := exec (.ldMemVx 15) { State.reset with i := 0xFF0 }) (by decide)
  exact ⟨_, t, ht, rfl⟩
theorem witness_StoredBytesReadBack : ([1, 2, 3] : List Byte).length ≤ 4096 ∧ ¬ spanFaults defaultConfig 0xFFD 3 ∧
    ([1, 2, 3] : List Byte)[2]? = some 3 ∧ Memory.wf defaultConfig (poke State.reset 0xFFD [1, 2, 3]).mem := by decide
theorem witness_ClsClearsEveryCell : famField 0x05E0 = 0x0 ∧ kkField 0x05E0 = 0xE0 ∧ xField 0x05E0 = 5 := by decide
/-- Five rows at the last legal base and one past it; no row at all anywhere. -/
theorem witness_DrawXorsWrappedSprite : ¬ spanFaults defaultConfig 0xFFB 5 ∧ spanFaults defaultConfig 0xFFC 5 ∧
    ¬ spanFaults defaultConfig 0xFFFF 0 := by decide
theorem witness_DrawingTwiceRestoresTheFramebuffer :
    ∃ s t u : State, exec (.drw 1 2 5) s = .next t ∧ u = { t with v := u.v } ∧ u.getV 1 = s.getV 1 ∧ u.getV 2 = s.getV 2 := by
  obtain ⟨t, ht, hP⟩ := next_of_any (r := exec (.drw 1 2 5) { start [(1, 62), (2, 31)] 0 with i := 0x50 })
    (P := fun t => t.getV 1 == 62 && t.getV 2 == 31) (by decide)
  simp only [Bool.and_eq_true, beq_iff_eq] at hP
  exact ⟨_, t, t, ht, rfl, hP.1.trans (by decide), hP.2.trans (by decide)⟩
/-- Key 15, up and down; 16 under each policy. -/
theorem witness_KeySkipsTestTheLevel :
    ((State.reset.setV 5 15).getV 5).toNat ≤ 15 ∧
      (press (State.reset.setV 5 15) 15).key[((State.reset.setV 5 15).getV 5).toNat % 16]? = some true ∧
      (State.reset.setV 5 15).key[((State.reset.setV 5 15).getV 5).toNat % 16]? = some false ∧
      (masking (State.reset.setV 5 16)).cfg.keyIndexPolicy = .mask ∧
      15 < ((State.reset.setV 5 16).getV 5).toNat ∧ (State.reset.setV 5 16).cfg.keyIndexPolicy = .fault := by decide
theorem witness_DelayTimerMoves :
    (famField 0xF307 = 0xF ∧ kkField 0xF307 = 0x07 ∧ xField 0xF307 = 3) ∧
      (famField 0xF415 = 0xF ∧ kkField 0xF415 = 0x15 ∧ xField 0xF415 = 4) ∧
      Executes (start [] 0xF307) (.ldVxDt 3) ∧ Executes (start [] 0xF415) (.ldDtVx 4) :=
  ⟨by decide, by decide, executes_of 0xF307 (by decide) (by decide) (by decide),
    executes_of 0xF415 (by decide) (by decide) (by decide)⟩
theorem witness_LoadKeyTakesLeastKeyOrWaits_runs :
    (famField 0xF20A = 0xF ∧ kkField 0xF20A = 0x0A ∧ xField 0xF20A = 2) ∧
      ∃ t, Executes (start [] 0xF20A) (.ldVxK 2) ∧ step (start [] 0xF20A) = .next t := by
  obtain ⟨t, ht⟩ := next_of_isSome (r := step (start [] 0xF20A)) (by decide)
  exact ⟨by decide, t, executes_of 0xF20A (by decide) (by decide) (by decide), ht⟩
/-- The least key at both ends of the keypad, and no key. -/
theorem witness_LoadKeyTakesLeastKeyOrWaits :
    (press (press State.reset 0) 9).key[0]? = some true ∧
      ((press State.reset 15).key[15]? = some true ∧ ∀ l < 15, (press State.reset 15).key[l]? = some false) ∧
      ∀ k < 16, State.reset.key[k]? = some false := by decide
theorem witness_KeyWaitTransitions :
    (∃ s t, s.keyWait = some .running ∧ (∀ x, ¬ Executes s (.ldVxK x)) ∧ step s = .next t) ∧
      (∃ s, s.keyWait = some .running ∧ Executes s (.ldVxK 2) ∧ s.key[7]? = some true ∧ ∀ l < 7, s.key[l]? = some false) ∧
      (∃ s, s.keyWait = some .running ∧ Executes s (.ldVxK 2) ∧ ∀ k < 16, s.key[k]? = some false) ∧
      (∃ s : State, s.keyWait = some .awaitingPress) ∧ ∃ s : State, s.keyWait = some .awaitingRelease := by
  have hE : Executes (start [] 0x1200) (.jp 0x200) := executes_of 0x1200 (by decide) (by decide) (by decide)
  obtain ⟨t, ht⟩ := next_of_isSome (r := step (start [] 0x1200)) (by decide)
  exact ⟨⟨start [] 0x1200, t, by decide, fun x => not_executes hE (by simp), ht⟩,
    ⟨press (start [] 0xF20A) 7, by decide, executes_of 0xF20A (by decide) (by decide) (by decide), by decide, by decide⟩,
    ⟨start [] 0xF20A, by decide, executes_of 0xF20A (by decide) (by decide) (by decide), by decide⟩,
    ⟨{ State.reset with awp := true }, by decide⟩, ⟨{ State.reset with awr := true }, by decide⟩⟩

/-- The font's last byte, and both ends of the rest. -/
theorem witness_ResetStatedValues : defaultConfig.fontGlyphs[79]? = some 0x80 ∧ 0x4F < defaultConfig.fontBase.val ∧
    defaultConfig.fontBase.val + 80 ≤ 0xA0 := by decide
theorem witness_ResetDecidedValues : State.reset.stack[15]? = some 0 ∧ State.reset.key[15]? = some false := by decide
/-- The longest image, and one byte more. -/
theorem witness_RomLoadPlacesTheImage : (List.replicate 3584 (0 : Byte)).length ≤ 3584 ∧
    3584 < (List.replicate 3585 (0 : Byte)).length ∧ ([7] : List Byte)[0]? = some 7 :=
  ⟨List.length_replicate.le, by rw [List.length_replicate]; decide, rfl⟩
theorem witness_HostMovesChangeTheirElementOnly : (14 : Nat) ≠ (15 : Nibble).toNat := by decide
theorem witness_FinishedProgramStaysFinished : ∃ s, StateInv s ∧ Finished s :=
  ⟨start [] 0x1200, ⟨by decide, by decide⟩, 0x200, by decide, by decide, by decide⟩

end Sys2Proof.Tests
end

section
/-! The cycle driver's key-wait gate (40_cycle_driver.md R122). -/

namespace Sys2Proof.Machine

/-- The gate is closed when either key-wait flag is set (R122). -/
theorem State.gated_eq_true_iff {s : State} : s.gated = true ↔ s.awp = true ∨ s.awr = true :=
  Bool.or_eq_true_iff

/-- A gated step only counts down (R122). -/
theorem step_of_gated {s : State} (h : s.gated = true) : step s = .next s.countDown := by
  rw [step_eq, cycle_of_gated h]
  rfl

/-- Settles O7: a closed gate leaves the countdown as the whole cycle, and the countdown writes the two timers only. -/
theorem keyWaitGateOnlyCountsTimersDown : Obligations.KeyWaitGateOnlyCountsTimersDown := by
  unfold Obligations.KeyWaitGateOnlyCountsTimersDown
  intro s hflag
  have hstep : step s = .next s.countDown := step_of_gated (State.gated_eq_true_iff.2 hflag)
  exact ⟨s.countDown, hstep, countDownTimer_toNat s.dt, countDownTimer_toNat s.st, rfl⟩

end Sys2Proof.Machine
end

section
/-! Control transfer: CALL (41_flow_control.md R142). -/

namespace Sys2Proof.Machine

/-- Every word of family 2 is a CALL of its low twelve bits (R142). -/
theorem decodeWord_eq_call {w : Word} {nnn : Addr12} (strict : Bool) (hfam : famField w = 0x2) (hnnn : nnnField w = nnn) :
    decodeWord strict w = .ok (.call nnn) := by
  rw [decodeWord_fam2 strict hfam, hnnn]

/-- A CALL below depth 16 pushes the `PC` it was entered with and jumps (R142). -/
theorem exec_call_of_lt (nnn : Addr12) {s : State} (h : s.sp.val < 16) :
    exec (.call nnn) s = .next { s with
      stack := s.stack.set s.sp.val s.pc
      sp := ⟨s.sp.val + 1, Nat.succ_lt_succ h⟩
      pc := zext16 nnn } :=
  dif_pos h

/-- A CALL at depth 16 raises InternalError (R142, R242). -/
theorem exec_call_of_full (nnn : Addr12) {s : State} (h : s.sp.val = 16) :
    exec (.call nnn) s = .fault (.internalError (encode (.call nnn))) :=
  dif_neg h.not_lt

/-- The fault of an instruction whose word decodes to it leaves the state its handler was entered with (R126). -/
theorem dispatchWord_of_exec_fault {s : State} {w : Word} {i : Instr} {r : Fault}
    (hd : decodeWord s.cfg.decodeStrict w = .ok i) (he : exec i s = .fault r) : dispatchWord w s = .fault r s :=
  dispatchWord_eq_fault.2 ⟨rfl, .inr ⟨i, hd, he⟩⟩

/-- Settles O26: below depth 16 the handler is one push and a jump; at depth 16 it raises, and dispatch keeps the state it
was given. -/
theorem callPushesOrFaults : Obligations.CallPushesOrFaults := by
  unfold Obligations.CallPushesOrFaults
  intro nnn s
  refine ⟨fun strict w => decodeWord_eq_call strict, fun hlt => ?_, fun hfull => ?_⟩
  · have hpushed : (s.stack.set s.sp.val s.pc)[s.sp.val]? = some s.pc := by simp [hlt]
    have hkept : ∀ k, k ≠ s.sp.val → (s.stack.set s.sp.val s.pc)[k]? = s.stack[k]? :=
      fun k hk => Vector.getElem?_set_ne hlt hk.symm
    exact ⟨_, exec_call_of_lt nnn hlt, rfl, zext16_toNat nnn, hpushed, hkept, rfl⟩
  · have hdecode : decodeWord s.cfg.decodeStrict (encode (.call nnn)) = .ok (.call nnn) :=
      decodeWord_eq_call _ (famField_packNNN 0x2 nnn) (nnnField_packNNN 0x2 nnn)
    have hfault := exec_call_of_full nnn hfull
    exact ⟨hfault, dispatchWord_of_exec_fault hdecode hfault⟩

end Sys2Proof.Machine
end

section
/-! Control transfer: the skips on an immediate (41_flow_control.md R143, R144, R148). -/

namespace Sys2Proof.Machine

/-- Where `PC` stands after a skip, as a number: 2 higher modulo 65536 when the condition holds (R77, R148). -/
theorem skipIf_pc_toNat {c : Bool} {p : Prop} [Decidable p] (hc : c = true ↔ p) (s : State) :
    (skipIf c s).pc.toNat = if p then (s.pc.toNat + 2) % 65536 else s.pc.toNat := by
  rw [skipIf_pc]
  by_cases hp : p
  · rw [if_pos (hc.2 hp), if_pos hp, BitVec.toNat_add]
    rfl
  · rw [if_neg (mt hc.1 hp), if_neg hp]

/-- An instruction whose meaning is a skip completes, changes `PC` alone, and skips iff its comparison holds. -/
theorem exec_of_skipIf {i : Instr} {s : State} {c : Bool} {p : Prop} [Decidable p] (he : exec i s = .next (skipIf c s))
    (hc : c = true ↔ p) :
    ∃ t, exec i s = .next t ∧ t = { s with pc := t.pc } ∧
      t.pc.toNat = if p then (s.pc.toNat + 2) % 65536 else s.pc.toNat :=
  ⟨skipIf c s, he, skipIf_frame c s, skipIf_pc_toNat hc s⟩

/-- `SE Vx, kk` is a skip on equality (R143). -/
theorem exec_seVxKk (x : Nibble) (kk : Byte) (s : State) :
    exec (.seVxKk x kk) s = .next (skipIf (s.getV x == kk) s) := rfl

/-- `SNE Vx, kk` is a skip on inequality (R144). -/
theorem exec_sneVxKk (x : Nibble) (kk : Byte) (s : State) :
    exec (.sneVxKk x kk) s = .next (skipIf (s.getV x != kk) s) := rfl

/-- Settles O28: both instructions are skips, on equality and on inequality. -/
theorem immediateSkipsCompare : Obligations.ImmediateSkipsCompare := by
  unfold Obligations.ImmediateSkipsCompare
  intro x kk s
  refine ⟨?_, exec_of_skipIf (exec_seVxKk x kk s) beq_iff_eq, ?_, exec_of_skipIf (exec_sneVxKk x kk s) bne_iff_ne⟩
  · rintro strict w hfam rfl rfl
    exact decodeWord_fam3 strict hfam
  · rintro strict w hfam rfl rfl
    exact decodeWord_fam4 strict hfam

end Sys2Proof.Machine
end

section
/-! Loads and ADD of an immediate (42_load_and_alu.md R160 to R162). -/

namespace Sys2Proof.Machine

/-- A word of family 8 with key 0 is `LD Vx, Vy` (R96, R162). -/
theorem decodeWord_fam8_key0 {w : Word} (strict : Bool) (hfam : famField w = 0x8) (hkey : nField w = 0x0) :
    decodeWord strict w = .ok (.ldVxVy (xField w) (yField w)) := by
  rw [decodeWord_fam8 strict hfam, decodeFam8, hkey]
  rfl

/-- `LD Vx, kk` writes the immediate (R160). -/
theorem exec_ldVxKk (x : Nibble) (kk : Byte) (s : State) : exec (.ldVxKk x kk) s = .next (s.setV x kk) := rfl

/-- `ADD Vx, kk` writes the sum (R161). -/
theorem exec_addVxKk (x : Nibble) (kk : Byte) (s : State) :
    exec (.addVxKk x kk) s = .next (s.setV x (s.getV x + kk)) := rfl

/-- `LD Vx, Vy` writes the source register (R162). -/
theorem exec_ldVxVy (x y : Nibble) (s : State) : exec (.ldVxVy x y) s = .next (s.setV x (s.getV y)) := rfl

/-- A register write changes the register file alone. -/
theorem State.setV_frame (s : State) (x : Nibble) (b : Byte) : s.setV x b = { s with v := (s.setV x b).v } := rfl

/-- An instruction whose meaning is one register write completes and leaves every other register and field. -/
theorem exec_of_setV {i : Instr} {s : State} {x : Nibble} {b : Byte} (he : exec i s = .next (s.setV x b)) :
    ∃ t, exec i s = .next t ∧ t = { s with v := t.v } ∧ ∀ z, t.getV z = if z = x then b else s.getV z :=
  ⟨s.setV x b, he, s.setV_frame x b, fun z => s.getV_setV x z b⟩

/-- Settles O31: each instruction is one write of `V[x]`; the byte ADD writes is the sum modulo 256. -/
theorem plainLoadsAndAddImmediate : Obligations.PlainLoadsAndAddImmediate := by
  unfold Obligations.PlainLoadsAndAddImmediate
  intro x y kk s
  refine ⟨?_, exec_of_setV (exec_ldVxKk x kk s), ?_, ?_, ?_, exec_of_setV (exec_ldVxVy x y s)⟩
  · rintro strict w hfam rfl rfl
    exact decodeWord_fam6 strict hfam
  · rintro strict w hfam rfl rfl
    exact decodeWord_fam7 strict hfam
  · obtain ⟨t, hexec, hframe, hread⟩ := exec_of_setV (exec_addVxKk x kk s)
    refine ⟨t, hexec, hframe, fun z => ?_⟩
    rw [hread z, apply_ite BitVec.toNat, BitVec.toNat_add]
  · rintro strict w hfam hkey rfl rfl
    exact decodeWord_fam8_key0 strict hfam hkey

end Sys2Proof.Machine
end

section
/-! RND (42_load_and_alu.md R171). -/

namespace Sys2Proof.Machine

/-- RND counts one draw and writes the drawn byte masked with `kk`, also when `kk` is 0 (R34, R171). -/
theorem exec_rndVxKk (x : Nibble) (kk : Byte) (s : State) :
    exec (.rndVxKk x kk) s =
      .next (({ s with draws := s.draws + 1 } : State).setV x (Config.freeByte s.draws &&& kk)) := rfl

/-- Settles O36: RND is one counted draw and one write of `V[x]`; the mask is read bit by bit, and 0 masks every byte
to 0. -/
theorem randomDrawsOneByteAndMasks : Obligations.RandomDrawsOneByteAndMasks := by
  unfold Obligations.RandomDrawsOneByteAndMasks
  intro x kk s
  refine ⟨?_, _, Config.freeByte s.draws, exec_rndVxKk x kk s, rfl, rfl, rfl, ?_, ?_, ?_⟩
  · rintro strict w hfam rfl rfl
    exact decodeWord_famC strict hfam
  · intro z hz
    exact State.getV_setV_ne _ _ hz
  · intro k
    rw [State.getV_setV_self, BitVec.getLsbD_and]
  · rintro rfl
    rw [State.getV_setV_self]
    exact BitVec.and_zero

end Sys2Proof.Machine
end

section
/-! Loads of the index register: LD I and LD F (43_index_and_memory.md R190, R192). -/

namespace Sys2Proof.Machine

/-- A word of family F with key `29` is `LD F, Vx` (R96, R192). -/
theorem decodeWord_famF_key29 {w : Word} (strict : Bool) (hfam : famField w = 0xF) (hkey : kkField w = 0x29) :
    decodeWord strict w = .ok (.ldFVx (xField w)) := by
  rw [decodeWord_famF strict hfam, decodeFamF, hkey]
  rfl

/-- `LD I, nnn` writes the immediate to `I` (R190). -/
theorem exec_ldI (nnn : Addr12) (s : State) : exec (.ldI nnn) s = .next { s with i := zext16 nnn } := rfl

/-- `LD F, Vx` writes the glyph address of the whole register byte to `I` (R192). -/
theorem exec_ldFVx (x : Nibble) (s : State) :
    exec (.ldFVx x) s = .next { s with i := BitVec.ofNat 16 (s.cfg.fontBase.val + 5 * (s.getV x).toNat) } := rfl

/-- The glyph address of any byte fits `I`: `FONT_BASE` is at most `0x1B0` (R6), so the sum is at most `0x6AB`. -/
theorem glyphAddress_toNat (c : Config) (b : Byte) :
    (BitVec.ofNat 16 (c.fontBase.val + 5 * b.toNat)).toNat = c.fontBase.val + 5 * b.toNat := by
  have hbase : c.fontBase.val < 0x1B1 := c.fontBase.isLt
  have hbyte : b.toNat < 256 := b.isLt
  rw [BitVec.toNat_ofNat, Nat.mod_eq_of_lt (by omega)]

/-- An instruction whose meaning is one write of `I` completes and leaves every other field. -/
theorem exec_of_setI {i : Instr} {s : State} {a : Word} {n : Nat} (he : exec i s = .next { s with i := a })
    (ha : a.toNat = n) : ∃ t, exec i s = .next t ∧ t.i.toNat = n ∧ t = { s with i := t.i } :=
  ⟨{ s with i := a }, he, ha, rfl⟩

/-- Settles O37: each instruction is one write of `I`; neither address needs a reduction modulo 65536. -/
theorem indexLoads : Obligations.IndexLoads := by
  unfold Obligations.IndexLoads
  intro nnn x s
  refine ⟨?_, exec_of_setI (exec_ldI nnn s) (zext16_toNat nnn), ?_,
    exec_of_setI (exec_ldFVx x s) (glyphAddress_toNat s.cfg (s.getV x))⟩
  · rintro strict w hfam rfl
    exact decodeWord_famA strict hfam
  · rintro strict w hfam hkey rfl
    exact decodeWord_famF_key29 strict hfam hkey

end Sys2Proof.Machine
end

section
/-! A step by the instruction it executes (40_cycle_driver.md R120, R125). -/

namespace Sys2Proof.Machine

/-- The gate is open when both key-wait flags are clear (R122). -/
theorem State.gated_eq_false_iff {s : State} : s.gated = false ↔ s.awp = false ∧ s.awr = false :=
  Bool.or_eq_false_iff

/-- A step that executes `i` is the handler of `i` on the counted-down and advanced state (R120). -/
theorem step_of_executes {s t : State} {i : Instr} (hrun : Executes s i)
    (hexec : exec i s.countDown.advancePc = .next t) : step s = .next t := by
  obtain ⟨hopen, w, hfetch, hdecode⟩ := hrun
  have hdispatch : dispatchWord w s.countDown.advancePc = .next t := dispatchWord_eq_next.2 ⟨i, hdecode, hexec⟩
  rw [step_eq, cycle_of_fetch_ok hopen hfetch, hdispatch]
  rfl

/-- With the gate open, a step that completes has executed some instruction (R120, R128). -/
theorem executes_of_step_next {s t : State} (hopen : s.gated = false) (hstep : step s = .next t) :
    ∃ i, Executes s i ∧ exec i s.countDown.advancePc = .next t := by
  rcases step_next_cases hstep with ⟨hgated, -⟩ | ⟨-, w, i, hfetch, hdecode, hexec⟩
  · exact absurd hgated (by simp [hopen])
  · exact ⟨i, ⟨hopen, w, hfetch, hdecode⟩, hexec⟩

end Sys2Proof.Machine
end

section
/-! The delay timer's moves (45_keypad_and_timers.md R222, R224). -/

namespace Sys2Proof.Machine

/-- A word of family F with key `07` is `LD Vx, DT` (R96, R222). -/
theorem decodeWord_famF_key07 {w : Word} (strict : Bool) (hfam : famField w = 0xF) (hkey : kkField w = 0x07) :
    decodeWord strict w = .ok (.ldVxDt (xField w)) := by
  rw [decodeWord_famF strict hfam, decodeFamF, hkey]
  rfl

/-- A word of family F with key `15` is `LD DT, Vx` (R96, R224). -/
theorem decodeWord_famF_key15 {w : Word} (strict : Bool) (hfam : famField w = 0xF) (hkey : kkField w = 0x15) :
    decodeWord strict w = .ok (.ldDtVx (xField w)) := by
  rw [decodeWord_famF strict hfam, decodeFamF, hkey]
  rfl

/-- `LD Vx, DT` is one write of `V[x]` (R222). -/
theorem exec_ldVxDt (x : Nibble) (s : State) : exec (.ldVxDt x) s = .next (s.setV x s.dt) := rfl

/-- `LD DT, Vx` is one write of `DT` (R224). -/
theorem exec_ldDtVx (x : Nibble) (s : State) : exec (.ldDtVx x) s = .next { s with dt := s.getV x } := rfl

/-- Settles O48: each handler is one write; over a cycle it reads and writes the timer after the countdown. -/
theorem delayTimerMoves : Obligations.DelayTimerMoves := by
  unfold Obligations.DelayTimerMoves
  intro x s
  refine ⟨?_, exec_of_setV (exec_ldVxDt x s), fun hrun => ?_, ?_, ⟨_, exec_ldDtVx x s, rfl, rfl⟩, fun hrun => ?_⟩
  · rintro strict w hfam hkey rfl
    exact decodeWord_famF_key07 strict hfam hkey
  · refine ⟨_, step_of_executes hrun (exec_ldVxDt x _), countDownTimer_toNat s.dt, ?_⟩
    rw [State.getV_setV_self]
    exact countDownTimer_toNat s.dt
  · rintro strict w hfam hkey rfl
    exact decodeWord_famF_key15 strict hfam hkey
  · exact ⟨_, step_of_executes hrun (exec_ldDtVx x _), rfl⟩

end Sys2Proof.Machine
end

section
/-! `LD Vx, K` (45_keypad_and_timers.md R223). -/

namespace Sys2Proof.Machine

/-- A word of family F with key `0A` is `LD Vx, K` (R96, R223). -/
theorem decodeWord_famF_key0A {w : Word} (strict : Bool) (hfam : famField w = 0xF) (hkey : kkField w = 0x0A) :
    decodeWord strict w = .ok (.ldVxK (xField w)) := by
  rw [decodeWord_famF strict hfam, decodeFamF, hkey]
  rfl

/-- The scan finds a key that is down and has every lower one up (R223). -/
theorem firstKey_of_least {s : State} {k : Nat} (hdown : s.key[k]? = some true)
    (hlower : ∀ l < k, s.key[l]? = some false) : firstKey s = some k := by
  obtain ⟨hk, hkey⟩ := Vector.getElem?_eq_some_iff.1 hdown
  exact firstKey_eq_some.2 ⟨hk, hkey, fun l hl => (Vector.getElem?_eq_some_iff.1 (hlower l hl)).2⟩

/-- The scan finds nothing when every key is up (R223). -/
theorem firstKey_of_all_up {s : State} (hup : ∀ k < 16, s.key[k]? = some false) : firstKey s = none :=
  firstKey_eq_none.2 fun k hk => (Vector.getElem?_eq_some_iff.1 (hup k hk)).2

/-- A key number fits a register. -/
theorem keyByte_toNat {s : State} {k : Nat} (h : firstKey s = some k) : (BitVec.ofNat 8 k).toNat = k := by
  obtain ⟨hk, -, -⟩ := firstKey_eq_some.1 h
  rw [BitVec.toNat_ofNat, Nat.mod_eq_of_lt (by omega)]

/-- With a key down `LD Vx, K` writes its number to `V[x]` and waits for a release (R223). -/
theorem exec_ldVxK_of_some (x : Nibble) {s : State} {k : Nat} (h : firstKey s = some k) :
    exec (.ldVxK x) s = .next { s.setV x (BitVec.ofNat 8 k) with awr := true } := by
  change execLdVxK x s = _
  rw [execLdVxK, h]

/-- With no key down `LD Vx, K` undoes the advance and waits for a press (R223). -/
theorem exec_ldVxK_of_none (x : Nibble) {s : State} (h : firstKey s = none) :
    exec (.ldVxK x) s = .next { s with awp := true, pc := s.pc - 2 } := by
  change execLdVxK x s = _
  rw [execLdVxK, h]

/-- `LD Vx, K` always completes (R223). -/
theorem exec_ldVxK_completes (x : Nibble) (s : State) : ∃ t, exec (.ldVxK x) s = .next t := by
  cases h : firstKey s with
  | some k => exact ⟨_, exec_ldVxK_of_some x h⟩
  | none => exact ⟨_, exec_ldVxK_of_none x h⟩

/-- Settles O50: the handler follows the scan, and either flag it sets closes the gate; the gate it ran behind was open,
so both flags were clear. -/
theorem loadKeyTakesLeastKeyOrWaits : Obligations.LoadKeyTakesLeastKeyOrWaits := by
  unfold Obligations.LoadKeyTakesLeastKeyOrWaits
  intro x s
  refine ⟨?_, fun k hdown hlower => ?_, fun hup => ?_, fun s' t' hrun _ => State.gated_eq_false_iff.1 hrun.1⟩
  · rintro strict w hfam hkey rfl
    exact decodeWord_famF_key0A strict hfam hkey
  · have hscan : firstKey s = some k := firstKey_of_least hdown hlower
    refine ⟨_, exec_ldVxK_of_some x hscan, rfl, State.gated_eq_true_iff.2 (.inr rfl), ?_, fun z hz => ?_, rfl⟩
    · exact (congrArg BitVec.toNat (s.getV_setV_self x _)).trans (keyByte_toNat hscan)
    · exact s.getV_setV_ne _ hz
  · exact ⟨_, exec_ldVxK_of_none x (firstKey_of_all_up hup), rfl, State.gated_eq_true_iff.2 (.inl rfl), rfl, rfl⟩

end Sys2Proof.Machine
end

section
/-! The key-wait machine (45_keypad_and_timers.md R226; 10_state.md R32, R33). -/

namespace Sys2Proof.Machine

/-! ### The three states as flag values (R33) -/

theorem State.keyWait_eq_running {s : State} : s.keyWait = some .running ↔ s.awp = false ∧ s.awr = false := by
  unfold State.keyWait
  cases s.awp <;> cases s.awr <;> decide

theorem State.keyWait_eq_awaitingPress {s : State} :
    s.keyWait = some .awaitingPress ↔ s.awp = true ∧ s.awr = false := by
  unfold State.keyWait
  cases s.awp <;> cases s.awr <;> decide

theorem State.keyWait_eq_awaitingRelease {s : State} :
    s.keyWait = some .awaitingRelease ↔ s.awp = false ∧ s.awr = true := by
  unfold State.keyWait
  cases s.awp <;> cases s.awr <;> decide

/-- The gate is open in RUNNING (R122). -/
theorem State.gated_of_running {s : State} (h : s.keyWait = some .running) : s.gated = false :=
  State.gated_eq_false_iff.2 (State.keyWait_eq_running.1 h)

/-- The gate is closed in both waiting states (R122). -/
theorem State.gated_of_awaiting {s : State}
    (h : s.keyWait = some .awaitingPress ∨ s.keyWait = some .awaitingRelease) : s.gated = true :=
  State.gated_eq_true_iff.2 <| h.imp (fun hp => (State.keyWait_eq_awaitingPress.1 hp).1)
    (fun hr => (State.keyWait_eq_awaitingRelease.1 hr).2)

/-! ### Only `LD Vx, K` leaves the state (R32) -/

/-- If `r` is a next state, it is in the key-wait state of `s`. -/
def KeepsKeyWait (s : State) (r : Result) : Prop := ∀ t, r = .next t → t.keyWait = s.keyWait

theorem keepsKeyWait_next {s t : State} (h : t.keyWait = s.keyWait) : KeepsKeyWait s (.next t) := by
  rintro u ⟨⟩
  exact h

theorem keepsKeyWait_raise (s : State) (r : Fault) : KeepsKeyWait s (raise r) := by
  rintro u ⟨⟩

theorem keepsKeyWait_skipIf (s : State) (c : Bool) : KeepsKeyWait s (.next (skipIf c s)) :=
  keepsKeyWait_next (by rw [skipIf_frame]; rfl)

theorem keepsKeyWait_checkSpan {s : State} {addr len : Nat} {k : Result} (hk : KeepsKeyWait s k) :
    KeepsKeyWait s (checkSpan s addr len k) :=
  fun t ht => hk t (checkSpan_eq_next.1 ht).2

theorem keepsKeyWait_withKeyIndex {s : State} {v : Byte} {k : Nibble → Result} (hk : ∀ n, KeepsKeyWait s (k n)) :
    KeepsKeyWait s (withKeyIndex s v k) := by
  rcases withKeyIndex_cases s v k with ⟨-, -, hfault⟩ | ⟨-, hindexed⟩
  · rw [hfault]
    exact keepsKeyWait_raise s _
  · rw [hindexed]
    exact hk _

/-- Every handler but that of `LD Vx, K` keeps the key-wait state (R32). -/
theorem exec_keepsKeyWait (s : State) {i : Instr} (hi : ∀ x, i ≠ .ldVxK x) : KeepsKeyWait s (exec i s) := by
  cases i with
  | ldVxK x => exact absurd rfl (hi x)
  | ret dc =>
    change KeepsKeyWait s (execRet dc s)
    unfold execRet
    split
    · exact keepsKeyWait_next rfl
    · exact keepsKeyWait_raise s _
  | call nnn =>
    change KeepsKeyWait s (execCall nnn s)
    unfold execCall
    split
    · exact keepsKeyWait_next rfl
    · exact keepsKeyWait_raise s _
  | seVxKk | sneVxKk | seVxVy | sneVxVy => exact keepsKeyWait_skipIf s _
  | skpVx | sknpVx => exact keepsKeyWait_withKeyIndex fun _ => keepsKeyWait_skipIf s _
  | drw | ldBVx | ldMemVx | ldVxMem => exact keepsKeyWait_checkSpan (keepsKeyWait_next rfl)
  | _ => exact keepsKeyWait_next rfl

/-! ### Cycles -/

/-- A cycle that executes another instruction stays RUNNING (R226). -/
theorem step_stays_running {s t : State} (hrunning : s.keyWait = some .running)
    (hother : ∀ x, ¬ Executes s (.ldVxK x)) (hstep : step s = .next t) : t.keyWait = some .running := by
  obtain ⟨i, hrun, hexec⟩ := executes_of_step_next (State.gated_of_running hrunning) hstep
  have hi : ∀ x, i ≠ .ldVxK x := by
    rintro x rfl
    exact hother x hrun
  exact (exec_keepsKeyWait _ hi t hexec).trans hrunning

/-- A cycle that executes `LD Vx, K` takes the least pressed key and waits for a release, or waits for a press with `PC`
where it was (R226). -/
theorem step_ldVxK_from_running {s : State} {x : Nibble} (hrunning : s.keyWait = some .running)
    (hrun : Executes s (.ldVxK x)) :
    ∃ t, step s = .next t ∧
      (∀ k : Nat, s.key[k]? = some true → (∀ l < k, s.key[l]? = some false) →
        t.keyWait = some .awaitingRelease ∧ (t.getV x).toNat = k ∧ t.pc = s.pc + 2) ∧
      ((∀ k < 16, s.key[k]? = some false) → t.keyWait = some .awaitingPress ∧ t.pc = s.pc) := by
  obtain ⟨hawp, hawr⟩ := State.keyWait_eq_running.1 hrunning
  obtain ⟨t, hexec⟩ := exec_ldVxK_completes x s.countDown.advancePc
  refine ⟨t, step_of_executes hrun hexec, fun k hdown hlower => ?_, fun hup => ?_⟩
  · have hscan : firstKey s.countDown.advancePc = some k := firstKey_of_least hdown hlower
    cases hexec.symm.trans (exec_ldVxK_of_some x hscan)
    refine ⟨State.keyWait_eq_awaitingRelease.2 ⟨hawp, rfl⟩, ?_, rfl⟩
    exact (congrArg BitVec.toNat (State.getV_setV_self _ x _)).trans (keyByte_toNat hscan)
  · have hscan : firstKey s.countDown.advancePc = none := firstKey_of_all_up hup
    cases hexec.symm.trans (exec_ldVxK_of_none x hscan)
    exact ⟨State.keyWait_eq_awaitingPress.2 ⟨rfl, hawr⟩, BitVec.add_sub_cancel s.pc 2⟩

/-! ### The host's edges -/

/-- A key-down edge changes nothing when `AWP` is clear (R254). -/
theorem hostMove_keyDownEdge_of_awp_clear {s : State} (h : s.awp = false) : hostMove .keyDownEdge s = s := by
  rw [hostMove, ← h]

/-- A key-up edge changes nothing when `AWR` is clear (R254). -/
theorem hostMove_keyUpEdge_of_awr_clear {s : State} (h : s.awr = false) : hostMove .keyUpEdge s = s := by
  rw [hostMove, ← h]

/-- Settles O51: from RUNNING only `LD Vx, K` leaves the state; a waiting state's cycle is the countdown; an edge clears one
flag, which is set in the one state it ends. -/
theorem keyWaitTransitions : Obligations.KeyWaitTransitions := by
  unfold Obligations.KeyWaitTransitions
  refine ⟨fun s t => step_stays_running, fun s x => step_ldVxK_from_running, fun s hwait => ?_, fun s hs => ?_,
    fun s hs => ?_, fun s hs => ?_, fun s k b => ⟨rfl, rfl⟩⟩
  · exact ⟨s.countDown, step_of_gated (State.gated_of_awaiting hwait), rfl, rfl, countDownTimer_toNat s.dt,
      countDownTimer_toNat s.st⟩
  · obtain ⟨hawp, hawr⟩ := State.keyWait_eq_running.1 hs
    exact ⟨hostMove_keyDownEdge_of_awp_clear hawp, hostMove_keyUpEdge_of_awr_clear hawr⟩
  · obtain ⟨-, hawr⟩ := State.keyWait_eq_awaitingPress.1 hs
    exact ⟨State.keyWait_eq_running.2 ⟨rfl, hawr⟩, rfl, hostMove_keyUpEdge_of_awr_clear hawr⟩
  · obtain ⟨hawp, -⟩ := State.keyWait_eq_awaitingRelease.1 hs
    exact ⟨State.keyWait_eq_running.2 ⟨hawp, rfl⟩, rfl, hostMove_keyDownEdge_of_awp_clear hawp⟩

end Sys2Proof.Machine
end

section
/-! Decoding and encoding are inverse (30_encoding.md R90 to R97, R100). -/

namespace Sys2Proof

/-- The word of a well-formed instruction decodes to it, family by family; in families 0, 8, E and F by its key. -/
theorem decodeWord_encode {strict : Bool} {i : Instr} (hwf : i.wellFormed strict = true) :
    decodeWord strict (encode i) = .ok i := by
  cases i with
  | cls dc | ret dc => simp [encode, decodeWord_fam0, decodeFam0, acceptDontCare, hwf]
  | seVxVy x y dc => simp [encode, decodeWord_fam5, acceptDontCare, hwf]
  | sneVxVy x y dc => simp [encode, decodeWord_fam9, acceptDontCare, hwf]
  | jp nnn => simp [encode, decodeWord_fam1]
  | call nnn => simp [encode, decodeWord_fam2]
  | seVxKk x kk => simp [encode, decodeWord_fam3]
  | sneVxKk x kk => simp [encode, decodeWord_fam4]
  | ldVxKk x kk => simp [encode, decodeWord_fam6]
  | addVxKk x kk => simp [encode, decodeWord_fam7]
  | ldI nnn => simp [encode, decodeWord_famA]
  | jpV0 nnn => simp [encode, decodeWord_famB]
  | rndVxKk x kk => simp [encode, decodeWord_famC]
  | drw x y n => simp [encode, decodeWord_famD]
  | skpVx x | sknpVx x => simp [encode, decodeWord_famE, decodeFamE]
  | ldVxVy x y | orVxVy x y | andVxVy x y | xorVxVy x y | addVxVy x y | subVxVy x y | shrVxVy x y | subnVxVy x y
  | shlVxVy x y => simp [encode, decodeWord_fam8, decodeFam8]
  | ldVxDt x | ldVxK x | ldDtVx x | ldStVx x | addIVx x | ldFVx x | ldBVx x | ldMemVx x | ldVxMem x =>
    simp [encode, decodeWord_famF, decodeFamF]

/-- Settles O1: the families' laws read the operands back off the packed word. -/
theorem decodeOfEncodeGivesInstruction : Obligations.DecodeOfEncodeGivesInstruction := by
  unfold Obligations.DecodeOfEncodeGivesInstruction
  exact fun strict i => decodeWord_encode

/-! ### A word packed from its fields -/

/-- A word is format NNN of its family and its low twelve bits. -/
theorem packNNN_of_fields {w : Word} {f : Nibble} (hfam : famField w = f) : packNNN f (nnnField w) = w := by
  rw [← hfam, packNNN_fields]

/-- A word is format XKK of its family, its `x` and its low byte. -/
theorem packXKK_of_fields {w : Word} {f : Nibble} {kk : Byte} (hfam : famField w = f) (hkk : kkField w = kk) :
    packXKK f (xField w) kk = w := by
  rw [← hfam, ← hkk, packXKK_fields]

/-- A word is format XYN of its four nibbles. -/
theorem packXYN_of_fields {w : Word} {f n : Nibble} (hfam : famField w = f) (hn : nField w = n) :
    packXYN f (xField w) (yField w) n = w := by
  rw [← hfam, ← hn, packXYN_fields]

/-- An instruction without don't-care bits is well-formed under both values of DECODE_STRICT (R95). -/
theorem wellFormed_of_dontCare_eq_zero {i : Instr} (strict : Bool) (h : i.dontCare = 0) :
    i.wellFormed strict = true := by
  simp [Instr.wellFormed, h]

/-- `w` is the word of the instruction `i`, which is well-formed. -/
def Encodes (strict : Bool) (w : Word) (i : Instr) : Prop := encode i = w ∧ i.wellFormed strict = true

variable {strict : Bool} {w : Word} {i : Instr}

theorem encodes_of_ok {j : Instr} (h : (.ok j : Except WordReject Instr) = .ok i) (henc : encode j = w)
    (hdc : j.dontCare = 0) : Encodes strict w i := by
  cases h
  exact ⟨henc, wellFormed_of_dontCare_eq_zero strict hdc⟩

theorem encodes_of_acceptDontCare {j : Instr} (h : acceptDontCare strict w j = .ok i) (henc : encode j = w) :
    Encodes strict w i := by
  obtain ⟨rfl, hwf⟩ := (acceptDontCare_eq_ok strict).1 h
  exact ⟨henc, hwf⟩

theorem encodes_of_decodeFam0 (hfam : famField w = 0x0) (h : decodeFam0 strict w = .ok i) : Encodes strict w i := by
  unfold decodeFam0 at h
  split at h
  · next hkey => exact encodes_of_acceptDontCare h (packXKK_of_fields hfam hkey)
  · next hkey => exact encodes_of_acceptDontCare h (packXKK_of_fields hfam hkey)
  · cases h

theorem encodes_of_decodeFam8 (hfam : famField w = 0x8) (h : decodeFam8 w = .ok i) : Encodes strict w i := by
  unfold decodeFam8 at h
  split at h <;> cases h <;> exact ⟨packXYN_of_fields hfam ‹_›, wellFormed_of_dontCare_eq_zero strict rfl⟩

theorem encodes_of_decodeFamE (hfam : famField w = 0xE) (h : decodeFamE w = .ok i) : Encodes strict w i := by
  unfold decodeFamE at h
  split at h <;> cases h <;> exact ⟨packXKK_of_fields hfam ‹_›, wellFormed_of_dontCare_eq_zero strict rfl⟩

theorem encodes_of_decodeFamF (hfam : famField w = 0xF) (h : decodeFamF w = .ok i) : Encodes strict w i := by
  unfold decodeFamF at h
  split at h <;> cases h <;> exact ⟨packXKK_of_fields hfam ‹_›, wellFormed_of_dontCare_eq_zero strict rfl⟩

/-- What a word decodes to is well-formed and encodes to the word: its fields, packed again (R92). -/
theorem encodes_of_decodeWord (h : decodeWord strict w = .ok i) : Encodes strict w i := by
  rcases nibble_cases (famField w) with
    hf | hf | hf | hf | hf | hf | hf | hf | hf | hf | hf | hf | hf | hf | hf | hf
  · exact encodes_of_decodeFam0 hf ((decodeWord_fam0 strict hf).symm.trans h)
  · exact encodes_of_ok ((decodeWord_fam1 strict hf).symm.trans h) (packNNN_of_fields hf) rfl
  · exact encodes_of_ok ((decodeWord_fam2 strict hf).symm.trans h) (packNNN_of_fields hf) rfl
  · exact encodes_of_ok ((decodeWord_fam3 strict hf).symm.trans h) (packXKK_of_fields hf rfl) rfl
  · exact encodes_of_ok ((decodeWord_fam4 strict hf).symm.trans h) (packXKK_of_fields hf rfl) rfl
  · exact encodes_of_acceptDontCare ((decodeWord_fam5 strict hf).symm.trans h) (packXYN_of_fields hf rfl)
  · exact encodes_of_ok ((decodeWord_fam6 strict hf).symm.trans h) (packXKK_of_fields hf rfl) rfl
  · exact encodes_of_ok ((decodeWord_fam7 strict hf).symm.trans h) (packXKK_of_fields hf rfl) rfl
  · exact encodes_of_decodeFam8 hf ((decodeWord_fam8 strict hf).symm.trans h)
  · exact encodes_of_acceptDontCare ((decodeWord_fam9 strict hf).symm.trans h) (packXYN_of_fields hf rfl)
  · exact encodes_of_ok ((decodeWord_famA strict hf).symm.trans h) (packNNN_of_fields hf) rfl
  · exact encodes_of_ok ((decodeWord_famB strict hf).symm.trans h) (packNNN_of_fields hf) rfl
  · exact encodes_of_ok ((decodeWord_famC strict hf).symm.trans h) (packXKK_of_fields hf rfl) rfl
  · exact encodes_of_ok ((decodeWord_famD strict hf).symm.trans h) (packXYN_of_fields hf rfl) rfl
  · exact encodes_of_decodeFamE hf ((decodeWord_famE strict hf).symm.trans h)
  · exact encodes_of_decodeFamF hf ((decodeWord_famF strict hf).symm.trans h)

/-- The words that decode to an instruction: its own word, when it is well-formed. -/
theorem decodeWord_eq_ok_iff : decodeWord strict w = .ok i ↔ encode i = w ∧ i.wellFormed strict = true :=
  ⟨encodes_of_decodeWord, fun ⟨henc, hwf⟩ => henc ▸ decodeWord_encode hwf⟩

/-- Settles O2: the fields a word decodes to, packed again, are the word. -/
theorem encodeOfDecodeGivesWord : Obligations.EncodeOfDecodeGivesWord := by
  unfold Obligations.EncodeOfDecodeGivesWord
  exact fun strict w i => decodeWord_eq_ok_iff.1

end Sys2Proof
end

section
/-! The illegal words (30_encoding.md R97; 60_exceptions.md R241, R242). -/

namespace Sys2Proof

variable {strict : Bool} {w : Word} {r : WordReject}

/-- An instruction is ill-formed exactly under DECODE_STRICT with a don't-care bit set (R95). -/
theorem wellFormed_eq_false_iff {i : Instr} : i.wellFormed strict = false ↔ strict = true ∧ i.dontCare ≠ 0 := by
  simp [Instr.wellFormed]

theorem decodeFam0_eq_error_iff : decodeFam0 strict w = .error r ↔ r = .invalidOpcode w ∧
    ((kkField w ≠ 0xE0 ∧ kkField w ≠ 0xEE) ∨
      (strict = true ∧ (kkField w = 0xE0 ∨ kkField w = 0xEE) ∧ xField w ≠ 0)) := by
  unfold decodeFam0
  split
  · next hkey => simp [acceptDontCare_eq_error, wellFormed_eq_false_iff, Instr.dontCare, hkey]
  · next hkey => simp [acceptDontCare_eq_error, wellFormed_eq_false_iff, Instr.dontCare, hkey]
  · next hE0 hEE =>
    exact ⟨fun h => ⟨(Except.error.inj h).symm, .inl ⟨hE0, hEE⟩⟩, fun h => congrArg _ h.1.symm⟩

theorem decodeFam8_eq_error_iff : decodeFam8 w = .error r ↔ r = .internalError w ∧
    (nField w = 0x8 ∨ nField w = 0x9 ∨ nField w = 0xA ∨ nField w = 0xB ∨ nField w = 0xC ∨ nField w = 0xD ∨
      nField w = 0xF) := by
  rcases nibble_cases (nField w) with
    hn | hn | hn | hn | hn | hn | hn | hn | hn | hn | hn | hn | hn | hn | hn | hn <;>
  simp [decodeFam8, hn, eq_comm]

theorem decodeFamE_eq_error_iff : decodeFamE w = .error r ↔ r = .invalidOpcode w ∧
    kkField w ≠ 0x9E ∧ kkField w ≠ 0xA1 := by
  unfold decodeFamE
  split <;> simp_all [eq_comm]

theorem decodeFamF_eq_error_iff : decodeFamF w = .error r ↔ r = .invalidOpcode w ∧
    kkField w ≠ 0x07 ∧ kkField w ≠ 0x0A ∧ kkField w ≠ 0x15 ∧ kkField w ≠ 0x18 ∧ kkField w ≠ 0x1E ∧
      kkField w ≠ 0x29 ∧ kkField w ≠ 0x33 ∧ kkField w ≠ 0x55 ∧ kkField w ≠ 0x65 := by
  unfold decodeFamF
  split <;> simp_all [eq_comm]

/-- Settles O3: a word is rejected by its key in families 0, 8, E and F, by its don't-care bits in families 0, 5 and 9,
and never in another family. -/
theorem illegalWordsAreExactlyTheUnmatchedCodes : Obligations.IllegalWordsAreExactlyTheUnmatchedCodes := by
  unfold Obligations.IllegalWordsAreExactlyTheUnmatchedCodes
  intro strict w r
  rcases nibble_cases (famField w) with
    hf | hf | hf | hf | hf | hf | hf | hf | hf | hf | hf | hf | hf | hf | hf | hf
  · simp [decodeWord_fam0 strict hf, decodeFam0_eq_error_iff, hf]
  · simp [decodeWord_fam1 strict hf, hf]
  · simp [decodeWord_fam2 strict hf, hf]
  · simp [decodeWord_fam3 strict hf, hf]
  · simp [decodeWord_fam4 strict hf, hf]
  · simp [decodeWord_fam5 strict hf, acceptDontCare_eq_error, wellFormed_eq_false_iff, Instr.dontCare, hf]
  · simp [decodeWord_fam6 strict hf, hf]
  · simp [decodeWord_fam7 strict hf, hf]
  · simp [decodeWord_fam8 strict hf, decodeFam8_eq_error_iff, hf]
  · simp [decodeWord_fam9 strict hf, acceptDontCare_eq_error, wellFormed_eq_false_iff, Instr.dontCare, hf]
  · simp [decodeWord_famA strict hf, hf]
  · simp [decodeWord_famB strict hf, hf]
  · simp [decodeWord_famC strict hf, hf]
  · simp [decodeWord_famD strict hf, hf]
  · simp [decodeWord_famE strict hf, decodeFamE_eq_error_iff, hf]
  · simp [decodeWord_famF strict hf, decodeFamF_eq_error_iff, hf]

end Sys2Proof
end

section
/-! The opcode map against the decoder (30_encoding.md R100). -/

namespace Sys2Proof

variable {w p m : Word}

/-! ### The fields a masked comparison fixes -/

theorem famField_and (w m : Word) : famField (w &&& m) = famField w &&& famField m := by
  simp [famField, BitVec.extractLsb'_and]
theorem xField_and (w m : Word) : xField (w &&& m) = xField w &&& xField m := by
  simp [xField, BitVec.extractLsb'_and]
theorem nField_and (w m : Word) : nField (w &&& m) = nField w &&& nField m := by
  simp [nField, BitVec.extractLsb'_and]
theorem kkField_and (w m : Word) : kkField (w &&& m) = kkField w &&& kkField m := by
  simp [kkField, BitVec.extractLsb'_and]

/-- A mask with all four family bits fixes the family. -/
theorem famField_of_masked (h : w &&& m = p) (hm : famField m = BitVec.allOnes 4) : famField w = famField p := by
  rw [← h, famField_and, hm, BitVec.and_allOnes]

/-- A mask with all four bits of `x` fixes `x`. -/
theorem xField_of_masked (h : w &&& m = p) (hm : xField m = BitVec.allOnes 4) : xField w = xField p := by
  rw [← h, xField_and, hm, BitVec.and_allOnes]

/-- A mask with the low nibble fixes the low nibble. -/
theorem nField_of_masked (h : w &&& m = p) (hm : nField m = BitVec.allOnes 4) : nField w = nField p := by
  rw [← h, nField_and, hm, BitVec.and_allOnes]

/-- A mask with the low byte fixes the low byte. -/
theorem kkField_of_masked (h : w &&& m = p) (hm : kkField m = BitVec.allOnes 8) : kkField w = kkField p := by
  rw [← h, kkField_and, hm, BitVec.and_allOnes]

/-- Every well-formed instruction's word selects its row, constructor by constructor (R100). -/
theorem encode_and_maskOf {strict : Bool} {i : Instr} (hwf : i.wellFormed strict = true) :
    encode i &&& i.row.maskOf strict = i.row.pattern := by
  cases i with
  | cls dc => exact Laws.RowMatch.cls dc strict hwf
  | ret dc => exact Laws.RowMatch.ret dc strict hwf
  | jp nnn => exact Laws.RowMatch.jp nnn strict hwf
  | call nnn => exact Laws.RowMatch.call nnn strict hwf
  | seVxKk x kk => exact Laws.RowMatch.seVxKk x kk strict hwf
  | sneVxKk x kk => exact Laws.RowMatch.sneVxKk x kk strict hwf
  | seVxVy x y dc => exact Laws.RowMatch.seVxVy x y dc strict hwf
  | ldVxKk x kk => exact Laws.RowMatch.ldVxKk x kk strict hwf
  | addVxKk x kk => exact Laws.RowMatch.addVxKk x kk strict hwf
  | ldVxVy x y => exact Laws.RowMatch.ldVxVy x y strict hwf
  | orVxVy x y => exact Laws.RowMatch.orVxVy x y strict hwf
  | andVxVy x y => exact Laws.RowMatch.andVxVy x y strict hwf
  | xorVxVy x y => exact Laws.RowMatch.xorVxVy x y strict hwf
  | addVxVy x y => exact Laws.RowMatch.addVxVy x y strict hwf
  | subVxVy x y => exact Laws.RowMatch.subVxVy x y strict hwf
  | shrVxVy x y => exact Laws.RowMatch.shrVxVy x y strict hwf
  | subnVxVy x y => exact Laws.RowMatch.subnVxVy x y strict hwf
  | shlVxVy x y => exact Laws.RowMatch.shlVxVy x y strict hwf
  | sneVxVy x y dc => exact Laws.RowMatch.sneVxVy x y dc strict hwf
  | ldI nnn => exact Laws.RowMatch.ldI nnn strict hwf
  | jpV0 nnn => exact Laws.RowMatch.jpV0 nnn strict hwf
  | rndVxKk x kk => exact Laws.RowMatch.rndVxKk x kk strict hwf
  | drw x y n => exact Laws.RowMatch.drw x y n strict hwf
  | skpVx x => exact Laws.RowMatch.skpVx x strict hwf
  | sknpVx x => exact Laws.RowMatch.sknpVx x strict hwf
  | ldVxDt x => exact Laws.RowMatch.ldVxDt x strict hwf
  | ldVxK x => exact Laws.RowMatch.ldVxK x strict hwf
  | ldDtVx x => exact Laws.RowMatch.ldDtVx x strict hwf
  | ldStVx x => exact Laws.RowMatch.ldStVx x strict hwf
  | addIVx x => exact Laws.RowMatch.addIVx x strict hwf
  | ldFVx x => exact Laws.RowMatch.ldFVx x strict hwf
  | ldBVx x => exact Laws.RowMatch.ldBVx x strict hwf
  | ldMemVx x => exact Laws.RowMatch.ldMemVx x strict hwf
  | ldVxMem x => exact Laws.RowMatch.ldVxMem x strict hwf

/-! ### The decoder on a word that selects a row -/

variable {strict : Bool} {j : Instr}

/-- A row without don't-care bits has one mask. -/
theorem maskOf_same (strict : Bool) (p m : Word) : OpcodeRow.maskOf ⟨p, m, m⟩ strict = m := by
  cases strict <;> rfl

/-- A word with a well-formed instruction's encoding decodes in that instruction's row. -/
theorem decodes_in_row (i : Instr) (henc : encode i = w) (hdc : strict = true → i.dontCare = 0 := by exact fun _ => rfl)
    (hrow : i.row = j.row := by rfl) : ∃ i, decodeWord strict w = .ok i ∧ i.row = j.row := by
  refine ⟨i, decodeWord_eq_ok_iff.2 ⟨henc, ?_⟩, hrow⟩
  cases strict with
  | false => rfl
  | true => exact wellFormed_of_dontCare_eq_zero true (hdc rfl)

/-- A word whose family and low byte a mask fixes is format XKK of them. -/
theorem packXKK_of_masked {f : Nibble} {kk : Byte} (h : w &&& m = p) (hf : famField m = BitVec.allOnes 4 := by rfl)
    (hk : kkField m = BitVec.allOnes 8 := by rfl) (hpf : famField p = f := by rfl) (hpk : kkField p = kk := by rfl) :
    packXKK f (xField w) kk = w :=
  packXKK_of_fields ((famField_of_masked h hf).trans hpf) ((kkField_of_masked h hk).trans hpk)

/-- A word whose family and low nibble a mask fixes is format XYN of them. -/
theorem packXYN_of_masked {f n : Nibble} (h : w &&& m = p) (hf : famField m = BitVec.allOnes 4 := by rfl)
    (hn : nField m = BitVec.allOnes 4 := by rfl) (hpf : famField p = f := by rfl) (hpn : nField p = n := by rfl) :
    packXYN f (xField w) (yField w) n = w :=
  packXYN_of_fields ((famField_of_masked h hf).trans hpf) ((nField_of_masked h hn).trans hpn)

/-- A word that selects a row decodes to an instruction of that row: mask and pattern fix the family, and the key and the
don't-care bits where the row has them (R94, R100). -/
theorem decodes_of_selects (h : w &&& j.row.maskOf strict = j.row.pattern) :
    ∃ i, decodeWord strict w = .ok i ∧ i.row = j.row := by
  cases j <;> simp only [Instr.row, maskOf_same] at h
  case jp => exact ⟨_, decodeWord_fam1 strict (famField_of_masked h rfl), rfl⟩
  case call => exact ⟨_, decodeWord_fam2 strict (famField_of_masked h rfl), rfl⟩
  case seVxKk => exact ⟨_, decodeWord_fam3 strict (famField_of_masked h rfl), rfl⟩
  case sneVxKk => exact ⟨_, decodeWord_fam4 strict (famField_of_masked h rfl), rfl⟩
  case ldVxKk => exact ⟨_, decodeWord_fam6 strict (famField_of_masked h rfl), rfl⟩
  case addVxKk => exact ⟨_, decodeWord_fam7 strict (famField_of_masked h rfl), rfl⟩
  case ldI => exact ⟨_, decodeWord_famA strict (famField_of_masked h rfl), rfl⟩
  case jpV0 => exact ⟨_, decodeWord_famB strict (famField_of_masked h rfl), rfl⟩
  case rndVxKk => exact ⟨_, decodeWord_famC strict (famField_of_masked h rfl), rfl⟩
  case drw => exact ⟨_, decodeWord_famD strict (famField_of_masked h rfl), rfl⟩
  case ldVxVy => exact decodes_in_row (.ldVxVy (xField w) (yField w)) (packXYN_of_masked h)
  case orVxVy => exact decodes_in_row (.orVxVy (xField w) (yField w)) (packXYN_of_masked h)
  case andVxVy => exact decodes_in_row (.andVxVy (xField w) (yField w)) (packXYN_of_masked h)
  case xorVxVy => exact decodes_in_row (.xorVxVy (xField w) (yField w)) (packXYN_of_masked h)
  case addVxVy => exact decodes_in_row (.addVxVy (xField w) (yField w)) (packXYN_of_masked h)
  case subVxVy => exact decodes_in_row (.subVxVy (xField w) (yField w)) (packXYN_of_masked h)
  case shrVxVy => exact decodes_in_row (.shrVxVy (xField w) (yField w)) (packXYN_of_masked h)
  case subnVxVy => exact decodes_in_row (.subnVxVy (xField w) (yField w)) (packXYN_of_masked h)
  case shlVxVy => exact decodes_in_row (.shlVxVy (xField w) (yField w)) (packXYN_of_masked h)
  case skpVx => exact decodes_in_row (.skpVx (xField w)) (packXKK_of_masked h)
  case sknpVx => exact decodes_in_row (.sknpVx (xField w)) (packXKK_of_masked h)
  case ldVxDt => exact decodes_in_row (.ldVxDt (xField w)) (packXKK_of_masked h)
  case ldVxK => exact decodes_in_row (.ldVxK (xField w)) (packXKK_of_masked h)
  case ldDtVx => exact decodes_in_row (.ldDtVx (xField w)) (packXKK_of_masked h)
  case ldStVx => exact decodes_in_row (.ldStVx (xField w)) (packXKK_of_masked h)
  case addIVx => exact decodes_in_row (.addIVx (xField w)) (packXKK_of_masked h)
  case ldFVx => exact decodes_in_row (.ldFVx (xField w)) (packXKK_of_masked h)
  case ldBVx => exact decodes_in_row (.ldBVx (xField w)) (packXKK_of_masked h)
  case ldMemVx => exact decodes_in_row (.ldMemVx (xField w)) (packXKK_of_masked h)
  case ldVxMem => exact decodes_in_row (.ldVxMem (xField w)) (packXKK_of_masked h)
  case cls =>
    cases strict with
    | false => exact decodes_in_row (.cls (xField w)) (packXKK_of_masked h) nofun
    | true => exact decodes_in_row (.cls (xField w)) (packXKK_of_masked h) (fun _ => xField_of_masked h rfl)
  case ret =>
    cases strict with
    | false => exact decodes_in_row (.ret (xField w)) (packXKK_of_masked h) nofun
    | true => exact decodes_in_row (.ret (xField w)) (packXKK_of_masked h) (fun _ => xField_of_masked h rfl)
  case seVxVy =>
    cases strict with
    | false => exact ⟨_, (decodeWord_fam5 false (famField_of_masked h rfl)).trans rfl, rfl⟩
    | true =>
      exact decodes_in_row (.seVxVy (xField w) (yField w) (nField w))
        (packXYN_of_fields (famField_of_masked h rfl) rfl) (fun _ => nField_of_masked h rfl)
  case sneVxVy =>
    cases strict with
    | false => exact ⟨_, (decodeWord_fam9 false (famField_of_masked h rfl)).trans rfl, rfl⟩
    | true =>
      exact decodes_in_row (.sneVxVy (xField w) (yField w) (nField w))
        (packXYN_of_fields (famField_of_masked h rfl) rfl) (fun _ => nField_of_masked h rfl)

/-- Settles O4: a selected row fixes the fields the decoder looks at, and a decoded word is its instruction's own. -/
theorem decoderFollowsTheOpcodeMap : Obligations.DecoderFollowsTheOpcodeMap := by
  unfold Obligations.DecoderFollowsTheOpcodeMap
  refine fun strict w j => ⟨decodes_of_selects, ?_⟩
  rintro ⟨i, hdecode, hrow⟩
  obtain ⟨henc, hwf⟩ := decodeWord_eq_ok_iff.1 hdecode
  rw [← henc, ← hrow]
  exact encode_and_maskOf hwf

end Sys2Proof
end

section
/-! Which fault a handler raises (60_exceptions.md R240, R242 to R244), and that no step is refused. -/

namespace Sys2Proof.Machine

/-- `r` is the fault `o` names, and a next state when `o` names none. -/
def Answers (o : Option Fault) (r : Result) : Prop :=
  (∀ f, r = .fault f ↔ o = some f) ∧ (o = none → ∃ t, r = .next t)

theorem answers_next (t : State) : Answers none (.next t) := ⟨fun f => by simp, fun _ => ⟨t, rfl⟩⟩

theorem answers_fault (f : Fault) : Answers (some f) (.fault f) := ⟨fun g => by simp, nofun⟩

/-- What answers with a fault or a next state is no refusal. -/
theorem Answers.ne_refused {o : Option Fault} {r : Result} (h : Answers o r) (q : Refusal) : r ≠ .refused q := by
  rintro rfl
  obtain ⟨hfault, hnext⟩ := h
  cases o with
  | none => obtain ⟨t, ht⟩ := hnext rfl; cases ht
  | some f => cases (hfault f).2 rfl

@[simp] theorem State.dataAddr_zero (s : State) : s.dataAddr 0 = s.i.toNat := rfl

/-- A checked data transfer faults exactly with its span's fault (R67, R243). -/
theorem answers_checkSpan (s t : State) (len : Nat) :
    Answers (dataSpanFault s len) (checkSpan s (s.dataAddr 0) len (.next t)) := by
  unfold dataSpanFault
  split
  · next h => rw [s.dataAddr_zero, checkSpan_of_faults h]; exact answers_fault _
  · next h => rw [s.dataAddr_zero, checkSpan_of_ok h]; exact answers_next t

/-- An indexed key test faults exactly with the index's fault (R228, R244). -/
theorem answers_withKeyIndex (s : State) (x : Nibble) (k : Nibble → State) :
    Answers (keyIndexFaultOf s x) (withKeyIndex s (s.getV x) fun n => .next (k n)) := by
  unfold keyIndexFaultOf
  rcases withKeyIndex_cases s (s.getV x) fun n => .next (k n) with ⟨hv, hp, hfault⟩ | ⟨hok, hindexed⟩
  · rw [if_pos ⟨hp, hv⟩, hfault]
    exact answers_fault _
  · rw [if_neg, hindexed]
    · exact answers_next _
    · rintro ⟨hp, hv⟩
      rcases hok with hle | hmask
      · omega
      · rw [hp] at hmask; cases hmask

/-- A RET above depth 0 pops the top slot into `PC` (R140). -/
theorem exec_ret_of_pos (dc : Nibble) {s : State} (h : 0 < s.sp.val) :
    exec (.ret dc) s = .next { s with
      sp := ⟨s.sp.val - 1, Nat.lt_of_le_of_lt (Nat.sub_le _ _) s.sp.isLt⟩
      pc := s.stack[s.sp.val - 1]'(by omega) } :=
  dif_pos h

/-- A RET at depth 0 raises InternalError (R140, R242). -/
theorem exec_ret_of_empty (dc : Nibble) {s : State} (h : s.sp.val = 0) :
    exec (.ret dc) s = .fault (.internalError (encode (.ret dc))) :=
  dif_neg (by omega)

/-- Every handler answers as the table of faults says: the guarded ones by their guard, the others always complete. -/
theorem exec_answers (i : Instr) (s : State) : Answers (handlerFault s i) (exec i s) := by
  cases i with
  | ret dc =>
    by_cases h : s.sp.val = 0
    · rw [handlerFault, if_pos h, exec_ret_of_empty dc h]
      exact answers_fault _
    · rw [handlerFault, if_neg h, exec_ret_of_pos dc (Nat.pos_of_ne_zero h)]
      exact answers_next _
  | call nnn =>
    by_cases h : s.sp.val = 16
    · rw [handlerFault, if_pos h, exec_call_of_full nnn h]
      exact answers_fault _
    · rw [handlerFault, if_neg h, exec_call_of_lt nnn (by omega)]
      exact answers_next _
  | drw | ldBVx | ldMemVx | ldVxMem => exact answers_checkSpan s _ _
  | skpVx x => exact answers_withKeyIndex s x fun k => skipIf (s.keyDown k) s
  | sknpVx x => exact answers_withKeyIndex s x fun k => skipIf (!s.keyDown k) s
  | ldVxK x =>
    obtain ⟨t, ht⟩ := exec_ldVxK_completes x s
    rw [ht]
    exact answers_next t
  | _ => exact answers_next _

/-- Settles O11: the guard of each guarded handler is its row of the table. -/
theorem handlersFaultExactlyAsListed : Obligations.HandlersFaultExactlyAsListed := by
  unfold Obligations.HandlersFaultExactlyAsListed
  exact exec_answers

/-- Settles O13: a cycle refuses only if a handler does, and none does. -/
theorem stepNeverRefuses : Obligations.StepNeverRefuses := by
  unfold Obligations.StepNeverRefuses
  intro s r hstep
  rw [step_eq] at hstep
  cases hgate : s.gated with
  | true => rw [cycle_of_gated hgate] at hstep; cases hstep
  | false =>
    cases hfetch : fetch s.countDown with
    | error f => rw [cycle_of_fetch_error hgate hfetch] at hstep; cases hstep
    | ok w =>
      rw [cycle_of_fetch_ok hgate hfetch] at hstep
      cases hdispatch : dispatchWord w s.countDown.advancePc with
      | next t => rw [hdispatch] at hstep; cases hstep
      | fault f u => rw [hdispatch] at hstep; cases hstep
      | refused q =>
        obtain ⟨i, -, hexec⟩ := dispatchWord_eq_refused.1 hdispatch
        exact (exec_answers i _).ne_refused q hexec

end Sys2Proof.Machine
end

section
/-! What a completed instruction changes, said once (the frames of 41_flow_control.md to 45_keypad_and_timers.md). -/

namespace Sys2Proof.Machine

/-- What instruction `i` can leave when it completes from `s`: every field it cannot write is the old one. The values
written are given only where an invariant rests on them; jumps and skips, which write `PC` alone, share one line. -/
inductive Completes (s : State) : Instr → State → Prop
  | cls (dc) : Completes s (.cls dc) { s with fb := Frame.clear, redraw := true }
  | ret (dc sp pc) (hsp : sp.val + 1 = s.sp.val) : Completes s (.ret dc) { s with sp := sp, pc := pc }
  | call (nnn sp stack pc) (hsp : sp.val = s.sp.val + 1) :
    Completes s (.call nnn) { s with stack := stack, sp := sp, pc := pc }
  | jumpOrSkip (i pc) : Completes s i { s with pc := pc }
  | ldVxKk (x kk b) : Completes s (.ldVxKk x kk) (s.setV x b)
  | addVxKk (x kk b) : Completes s (.addVxKk x kk) (s.setV x b)
  | ldVxVy (x y b) : Completes s (.ldVxVy x y) (s.setV x b)
  | ldVxDt (x b) : Completes s (.ldVxDt x) (s.setV x b)
  | rndVxKk (x kk b draws) : Completes s (.rndVxKk x kk) (({ s with draws := draws } : State).setV x b)
  | flagWriter (x y i v) (hi : i = .orVxVy x y ∨ i = .andVxVy x y ∨ i = .xorVxVy x y ∨ i = .addVxVy x y ∨
      i = .subVxVy x y ∨ i = .shrVxVy x y ∨ i = .subnVxVy x y ∨ i = .shlVxVy x y) : Completes s i { s with v := v }
  | drw (x y n fb v) : Completes s (.drw x y n) { s with fb := fb, redraw := true, v := v }
  | ldI (nnn a) : Completes s (.ldI nnn) { s with i := a }
  | addIVx (x a) : Completes s (.addIVx x) { s with i := a }
  | ldFVx (x a) : Completes s (.ldFVx x) { s with i := a }
  | ldDtVx (x) : Completes s (.ldDtVx x) { s with dt := s.getV x }
  | ldStVx (x) : Completes s (.ldStVx x) { s with st := s.getV x }
  | keyTaken (x b) : Completes s (.ldVxK x) { s.setV x b with awr := true }
  | keyAwaited (x pc) : Completes s (.ldVxK x) { s with awp := true, pc := pc }
  | ldBVx (x addr bs) : Completes s (.ldBVx x) (s.storeBytes addr bs)
  | ldMemVx (x addr bs) : Completes s (.ldMemVx x) ((s.storeBytes addr bs).bumpI x)
  | ldVxMem (x) : Completes s (.ldVxMem x) ((s.loadRegs x).bumpI x)

/-- If `r` is a next state, `i` can leave it. -/
def CompletesTo (s : State) (i : Instr) (r : Result) : Prop := ∀ t, r = .next t → Completes s i t

variable {s t : State} {i : Instr}

theorem completesTo_next (h : Completes s i t) : CompletesTo s i (.next t) := by
  rintro u ⟨⟩
  exact h

theorem completesTo_raise (r : Fault) : CompletesTo s i (raise r) := by
  rintro u ⟨⟩

theorem completesTo_skipIf (c : Bool) : CompletesTo s i (.next (skipIf c s)) :=
  completesTo_next (skipIf_frame c s ▸ .jumpOrSkip i _)

theorem completesTo_checkSpan {addr len : Nat} (h : Completes s i t) :
    CompletesTo s i (checkSpan s addr len (.next t)) :=
  fun u hu => completesTo_next h u (checkSpan_eq_next.1 hu).2

theorem completesTo_withKeyIndex {v : Byte} {k : Nibble → Result} (hk : ∀ n, CompletesTo s i (k n)) :
    CompletesTo s i (withKeyIndex s v k) := by
  rcases withKeyIndex_cases s v k with ⟨-, -, hfault⟩ | ⟨-, hindexed⟩
  · rw [hfault]
    exact completesTo_raise _
  · rw [hindexed]
    exact hk _

/-- Every handler leaves what `Completes` says, constructor by constructor. -/
theorem exec_completesTo (i : Instr) (s : State) : CompletesTo s i (exec i s) := by
  cases i with
  | cls dc => exact completesTo_next (.cls dc)
  | ret dc =>
    by_cases h : s.sp.val = 0
    · exact exec_ret_of_empty dc h ▸ completesTo_raise _
    · exact exec_ret_of_pos dc (Nat.pos_of_ne_zero h) ▸
        completesTo_next (.ret dc _ _ (Nat.sub_add_cancel (Nat.pos_of_ne_zero h)))
  | call nnn =>
    by_cases h : s.sp.val = 16
    · exact exec_call_of_full nnn h ▸ completesTo_raise _
    · have hlt : s.sp.val < 16 := by omega
      exact exec_call_of_lt nnn hlt ▸ completesTo_next (.call nnn _ _ _ rfl)
  | jp | jpV0 => exact completesTo_next (.jumpOrSkip _ _)
  | seVxKk | sneVxKk | seVxVy | sneVxVy => exact completesTo_skipIf _
  | skpVx | sknpVx => exact completesTo_withKeyIndex fun _ => completesTo_skipIf _
  | ldVxKk x kk => exact completesTo_next (.ldVxKk x kk _)
  | addVxKk x kk => exact completesTo_next (.addVxKk x kk _)
  | ldVxVy x y => exact completesTo_next (.ldVxVy x y _)
  | ldVxDt x => exact completesTo_next (.ldVxDt x _)
  | rndVxKk x kk => exact completesTo_next (.rndVxKk x kk _ _)
  | orVxVy x y | andVxVy x y | xorVxVy x y | addVxVy x y | subVxVy x y | shrVxVy x y | subnVxVy x y | shlVxVy x y =>
    exact completesTo_next (.flagWriter x y _ _ (by simp))
  | drw x y n => exact completesTo_checkSpan (.drw x y n _ _)
  | ldI nnn => exact completesTo_next (.ldI nnn _)
  | addIVx x => exact completesTo_next (.addIVx x _)
  | ldFVx x => exact completesTo_next (.ldFVx x _)
  | ldDtVx x => exact completesTo_next (.ldDtVx x)
  | ldStVx x => exact completesTo_next (.ldStVx x)
  | ldVxK x =>
    cases hscan : firstKey s with
    | some k => exact exec_ldVxK_of_some x hscan ▸ completesTo_next (.keyTaken x _)
    | none => exact exec_ldVxK_of_none x hscan ▸ completesTo_next (.keyAwaited x _)
  | ldBVx x => exact completesTo_checkSpan (.ldBVx x _ _)
  | ldMemVx x => exact completesTo_checkSpan (.ldMemVx x _ _)
  | ldVxMem x => exact completesTo_checkSpan (.ldVxMem x)

/-! ### Steps -/

/-- The outcome of dispatching a decoded word is its handler's (R120). -/
theorem dispatchWord_outcome {w : Word} (hdecode : decodeWord s.cfg.decodeStrict w = .ok i) :
    (dispatchWord w s).outcome = exec i s := by
  rw [dispatchWord, hdecode]
  cases hexec : exec i s <;> simp [hexec, CycleEnd.outcome]

/-- A step that executes `i` has the outcome of its handler on the counted-down and advanced state (R120). -/
theorem step_eq_exec_of_executes (hrun : Executes s i) :
    step s = exec i s.countDown.advancePc := by
  obtain ⟨hopen, w, hfetch, hdecode⟩ := hrun
  rw [step_eq, cycle_of_fetch_ok hopen hfetch]
  exact dispatchWord_outcome hdecode

/-- A completed step that executed `i` completed its handler (R120). -/
theorem exec_of_step_next (hrun : Executes s i) (hstep : step s = .next t) : exec i s.countDown.advancePc = .next t :=
  (step_eq_exec_of_executes hrun).symm.trans hstep

/-- A completed step is a gated one, which only counts down, or it executed an instruction that left `t` (R120, R122). -/
theorem step_next_completes (hstep : step s = .next t) :
    t = s.countDown ∨ ∃ i, Executes s i ∧ Completes s.countDown.advancePc i t := by
  rcases step_next_cases hstep with ⟨-, ht⟩ | ⟨hopen, w, i, hfetch, hdecode, hexec⟩
  · exact .inl ht
  · exact .inr ⟨i, ⟨hopen, w, hfetch, hdecode⟩, exec_completesTo i _ t hexec⟩

end Sys2Proof.Machine
end

section
/-! The invariant over steps, host moves and schedules (10_state.md R33, R39; 40_cycle_driver.md R130). -/

namespace Sys2Proof.Machine

/-- A completed instruction keeps the canonical form: the two that store do so through `storeBytes` (R65, R69). -/
theorem Completes.wf {s t : State} {i : Instr} (h : Completes s i t) (hwf : Memory.wf s.cfg s.mem) :
    Memory.wf t.cfg t.mem := by
  cases h with
  | ldBVx x addr bs | ldMemVx x addr bs => exact Memory.wf_storeAll hwf addr bs
  | _ => exact hwf

/-- An instruction that completes with both key-wait flags clear leaves at most one of them set (R32, R33). -/
theorem Completes.not_both_flags {s t : State} {i : Instr} (h : Completes s i t) (hawp : s.awp = false)
    (hawr : s.awr = false) : ¬ (t.awp = true ∧ t.awr = true) := by
  cases h with
  | keyTaken x b => exact fun hboth => Bool.false_ne_true (hawp.symm.trans hboth.1)
  | _ => exact fun hboth => Bool.false_ne_true (hawr.symm.trans hboth.2)

/-- A step keeps the invariant: the gate is open when an instruction runs, so both flags were clear. -/
theorem step_keeps_stateInv {s t : State} (hinv : StateInv s) (hstep : step s = .next t) : StateInv t := by
  rcases step_next_completes hstep with rfl | ⟨i, hrun, hdone⟩
  · exact hinv
  · obtain ⟨hawp, hawr⟩ := State.gated_eq_false_iff.1 hrun.1
    exact ⟨hdone.wf hinv.1, hdone.not_both_flags hawp hawr⟩

/-- Settles O14: the frames keep memory canonical, and the gate keeps a second flag from being set. -/
theorem stepKeepsInvariant : Obligations.StepKeepsInvariant := by
  unfold Obligations.StepKeepsInvariant
  exact fun s t => step_keeps_stateInv

/-- A host move keeps the invariant: it leaves memory alone and sets no key-wait flag (R254). -/
theorem hostMove_keeps_stateInv {s : State} (m : HostMove) (hinv : StateInv s) : StateInv (hostMove m s) := by
  obtain ⟨hwf, hflags⟩ := hinv
  cases m with
  | setKey k v => exact ⟨hwf, hflags⟩
  | keyDownEdge => exact ⟨hwf, fun hboth => Bool.false_ne_true hboth.1⟩
  | keyUpEdge => exact ⟨hwf, fun hboth => Bool.false_ne_true hboth.2⟩
  | clearRedraw => exact ⟨hwf, hflags⟩

theorem runEvent_keeps_stateInv {e : Event} {s t : State} (hinv : StateInv s) (hrun : runEvent e s = .next t) :
    StateInv t := by
  cases e with
  | cycle => exact step_keeps_stateInv hinv hrun
  | move m =>
    cases hrun
    exact hostMove_keeps_stateInv m hinv

/-- Settles O57: a cycle by the step's lemma, a host move by its own. -/
theorem everyEventKeepsInvariant : Obligations.EveryEventKeepsInvariant := by
  unfold Obligations.EveryEventKeepsInvariant
  exact fun e s t => runEvent_keeps_stateInv

/-- A schedule that completes ran its first event and then the rest (R130). -/
theorem runEvents_cons_eq_next {e : Event} {es : List Event} {s t : State} :
    runEvents (e :: es) s = .next t ↔ ∃ u, runEvent e s = .next u ∧ runEvents es u = .next t := by
  rw [runEvents]
  cases runEvent e s <;> simp

/-- A schedule keeps the invariant, event by event (R130). -/
theorem runEvents_keeps_stateInv {es : List Event} {s t : State} (hinv : StateInv s)
    (hrun : runEvents es s = .next t) : StateInv t := by
  induction es generalizing s with
  | nil =>
    cases hrun
    exact hinv
  | cons e es ih =>
    obtain ⟨u, hfirst, hrest⟩ := runEvents_cons_eq_next.1 hrun
    exact ih (runEvent_keeps_stateInv hinv hfirst) hrest

/-- Reset has the invariant: no cell is listed and no flag is set (R41). -/
theorem stateInv_resetWith (c : Config) : StateInv (State.resetWith c) :=
  ⟨⟨List.Pairwise.nil, fun _ hp => absurd hp List.not_mem_nil⟩, fun hboth => Bool.false_ne_true hboth.1⟩

/-- Settles O15: reset lists no cell and sets no flag. -/
theorem resetHasInvariant : Obligations.ResetHasInvariant := by
  unfold Obligations.ResetHasInvariant
  exact stateInv_resetWith

/-- The ROM load of an image that fits (R281). -/
theorem loadRom_of_le {image : List Byte} (s : State) (h : image.length ≤ 3584) :
    loadRom image s = .next { s.storeBytes 0x200 image with pc := 0x200 } :=
  if_pos h

/-- The ROM load refuses a longer image (R282). -/
theorem loadRom_of_gt {image : List Byte} (s : State) (h : 3584 < image.length) :
    loadRom image s = .refused (.imageTooLong image.length) :=
  if_neg (Nat.not_le.2 h)

/-- The ROM load keeps the invariant (R281). -/
theorem loadRom_keeps_stateInv {image : List Byte} {s t : State} (hinv : StateInv s)
    (hload : loadRom image s = .next t) : StateInv t := by
  rcases Nat.lt_or_ge 3584 image.length with hlong | hfits
  · cases (loadRom_of_gt s hlong).symm.trans hload
  · cases (loadRom_of_le s hfits).symm.trans hload
    exact ⟨Memory.wf_storeAll hinv.1 0x200 image, hinv.2⟩

/-- Settles O58: the load is one store on the reset state. -/
theorem launchHasInvariant : Obligations.LaunchHasInvariant := by
  unfold Obligations.LaunchHasInvariant
  exact fun c image s => loadRom_keeps_stateInv (stateInv_resetWith c)

/-- Settles O16: reset has the invariant, and the load and every event keep it. -/
theorem everyScheduleFromLaunchKeepsInvariant : Obligations.EveryScheduleFromLaunchKeepsInvariant := by
  unfold Obligations.EveryScheduleFromLaunchKeepsInvariant
  intro c image s t es hload hrun
  exact runEvents_keeps_stateInv (loadRom_keeps_stateInv (stateInv_resetWith c) hload) hrun

end Sys2Proof.Machine
end

section
/-! Who writes what: the whole-machine rules of 10_state.md, read off the frames. -/

namespace Sys2Proof.Machine

/-- Settles O17: no frame writes the parameters or the keypad. -/
theorem stepChangesNoParameterAndNoKey : Obligations.StepChangesNoParameterAndNoKey := by
  unfold Obligations.StepChangesNoParameterAndNoKey
  intro s t hstep
  rcases step_next_completes hstep with rfl | ⟨i, -, hdone⟩
  · exact ⟨rfl, rfl⟩
  · cases hdone <;> exact ⟨rfl, rfl⟩

/-- Settles O18: the frames of CALL and RET are the two that write `SP`, and CALL's the one that writes a slot. -/
theorem stackChangesOnlyByCallAndRet : Obligations.StackChangesOnlyByCallAndRet := by
  unfold Obligations.StackChangesOnlyByCallAndRet
  intro s t hstep
  rcases step_next_completes hstep with rfl | ⟨i, hrun, hdone⟩
  · exact .inl ⟨rfl, rfl⟩
  · cases hdone with
    | call nnn sp stack pc hsp => exact .inr (.inl ⟨nnn, hrun, hsp⟩)
    | ret dc sp pc hsp => exact .inr (.inr ⟨dc, hrun, hsp, rfl⟩)
    | _ => exact .inl ⟨rfl, rfl⟩

/-- `CLS` clears every cell and sets REDRAW (R210). -/
theorem exec_cls (dc : Nibble) (s : State) :
    exec (.cls dc) s = .next { s with fb := Frame.clear, redraw := true } := rfl

/-- A completed `DRW` has set REDRAW (R211). -/
theorem redraw_of_exec_drw {x y n : Nibble} {s t : State} (h : exec (.drw x y n) s = .next t) : t.redraw = true := by
  obtain ⟨-, hdrawn⟩ := checkSpan_eq_next.1 h
  cases hdrawn
  rfl

/-- Settles O19: the frames of CLS and DRW are the two that write the display, and both set REDRAW. -/
theorem displayChangesOnlyByClsAndDrw : Obligations.DisplayChangesOnlyByClsAndDrw := by
  unfold Obligations.DisplayChangesOnlyByClsAndDrw
  intro s t hstep
  refine ⟨?_, fun dc hrun => ?_, fun x y n hrun => redraw_of_exec_drw (exec_of_step_next hrun hstep), fun hset => ?_⟩
  · rcases step_next_completes hstep with rfl | ⟨i, hrun, hdone⟩
    · exact .inl ⟨rfl, rfl⟩
    · cases hdone with
      | cls dc => exact .inr (.inl ⟨dc, hrun⟩)
      | drw x y n => exact .inr (.inr ⟨x, y, n, hrun⟩)
      | _ => exact .inl ⟨rfl, rfl⟩
  · cases (exec_cls dc _).symm.trans (exec_of_step_next hrun hstep)
    rfl
  · rcases step_next_completes hstep with rfl | ⟨i, -, hdone⟩
    · exact hset
    · cases hdone with
      | cls | drw => rfl
      | _ => exact hset

/-- Settles O20: the frames of `LD Vx, K` are the two that write a key-wait flag, and each sets one. -/
theorem keyWaitFlagsAreOnlySetByLoadKey : Obligations.KeyWaitFlagsAreOnlySetByLoadKey := by
  unfold Obligations.KeyWaitFlagsAreOnlySetByLoadKey
  intro s t hstep
  rcases step_next_completes hstep with rfl | ⟨i, hrun, hdone⟩
  · exact .inl ⟨rfl, rfl⟩
  · cases hdone with
    | keyTaken x => exact .inr ⟨x, hrun, .inr ⟨rfl, rfl⟩⟩
    | keyAwaited x => exact .inr ⟨x, hrun, .inl ⟨rfl, rfl⟩⟩
    | _ => exact .inl ⟨rfl, rfl⟩

/-- Settles O21: the frames of LD B and LD [I] are the two that write memory. -/
theorem memoryChangesOnlyByLoadBAndStoreRegisters : Obligations.MemoryChangesOnlyByLoadBAndStoreRegisters := by
  unfold Obligations.MemoryChangesOnlyByLoadBAndStoreRegisters
  intro s t hstep
  rcases step_next_completes hstep with rfl | ⟨i, hrun, hdone⟩
  · exact .inl fun _ => rfl
  · cases hdone with
    | ldBVx x => exact .inr (.inl ⟨x, hrun⟩)
    | ldMemVx x => exact .inr (.inr ⟨x, hrun⟩)
    | _ => exact .inl fun _ => rfl

/-- A register write that changes VF names VF as its destination (R20). -/
theorem eq_vf_of_getV_setV_ne {s : State} {x : Nibble} {b : Byte} (h : (s.setV x b).getV 15 ≠ s.getV 15) : x = 15 := by
  by_contra hx
  exact h (s.getV_setV_ne b (Ne.symm hx))

/-- A load of registers `0..x` that changes VF has `x` = F (R195). -/
theorem eq_vf_of_getV_loadRegs_ne {s : State} {x : Nibble} (h : (s.loadRegs x).getV 15 ≠ s.getV 15) : x = 15 := by
  rw [State.getV_loadRegs] at h
  have hx : 15 ≤ x.toNat := by
    by_contra hlt
    exact h (if_neg hlt)
  exact BitVec.eq_of_toNat_eq (Nat.le_antisymm (Nat.le_of_lt_succ x.isLt) hx)

/-- Settles O22: a frame that writes registers is a flag writer's or names its register, which must be VF. -/
theorem flagRegisterChangesOnlyByListedWriters : Obligations.FlagRegisterChangesOnlyByListedWriters := by
  unfold Obligations.FlagRegisterChangesOnlyByListedWriters
  intro s t i hstep hrun hchanged
  have hdone := exec_completesTo i _ t (exec_of_step_next hrun hstep)
  change t.getV 15 ≠ s.countDown.advancePc.getV 15 at hchanged
  cases hdone with
  | flagWriter x y i v hi => exact .inl ⟨x, y, by tauto⟩
  | ldVxVy x y b => exact .inl ⟨x, y, by simp [eq_vf_of_getV_setV_ne hchanged]⟩
  | drw x y n => exact .inr (.inl ⟨x, y, n, rfl⟩)
  | ldVxKk x kk b => exact .inr (.inr (.inl ⟨kk, by simp [eq_vf_of_getV_setV_ne hchanged]⟩))
  | addVxKk x kk b => exact .inr (.inr (.inl ⟨kk, by simp [eq_vf_of_getV_setV_ne hchanged]⟩))
  | rndVxKk x kk b draws => exact .inr (.inr (.inl ⟨kk, by simp [eq_vf_of_getV_setV_ne hchanged]⟩))
  | ldVxDt x b => simp [eq_vf_of_getV_setV_ne hchanged]
  | keyTaken x b => simp [eq_vf_of_getV_setV_ne hchanged]
  | ldVxMem x => simp [eq_vf_of_getV_loadRegs_ne hchanged]
  | _ => exact absurd rfl hchanged

/-- Settles O23: the frames that write `I` are those of the five instructions. -/
theorem indexChangesOnlyByListedWriters : Obligations.IndexChangesOnlyByListedWriters := by
  unfold Obligations.IndexChangesOnlyByListedWriters
  intro s t hstep hchanged
  rcases step_next_completes hstep with rfl | ⟨i, hrun, hdone⟩
  · exact absurd rfl hchanged
  · cases hdone with
    | ldI nnn => exact .inl ⟨nnn, hrun⟩
    | addIVx x => exact .inr ⟨x, .inl hrun⟩
    | ldFVx x => exact .inr ⟨x, .inr (.inl hrun)⟩
    | ldMemVx x => exact .inr ⟨x, .inr (.inr (.inl hrun))⟩
    | ldVxMem x => exact .inr ⟨x, .inr (.inr (.inr hrun))⟩
    | _ => exact absurd rfl hchanged

end Sys2Proof.Machine
end

section
/-! The cycle's parts in order: fetch, decode, handler, and the state a fault leaves (40_cycle_driver.md R120 to R126;
60_exceptions.md R247). -/

namespace Sys2Proof.Machine

/-! ### Fetch and dispatch -/

/-- The fetch fails exactly on its bounds check (R70, R123). -/
theorem fetch_eq_error_iff {s : State} {r : Fault} :
    fetch s = .error r ↔ spanFaults s.cfg s.pc.toNat 2 ∧ r = .addressFault (s.pc.toNat + 1) := by
  by_cases h : spanFaults s.cfg s.pc.toNat 2
  · rw [fetch_of_faults h]
    exact ⟨fun he => ⟨h, (Except.error.inj he).symm⟩, fun he => congrArg _ he.2.symm⟩
  · rw [fetch_of_ok h]
    exact ⟨nofun, fun he => absurd he.1 h⟩

/-- Past its bounds check the fetch is the two bytes at `PC` (R70). -/
theorem fetch_eq_ok_iff {s : State} {w : Word} :
    fetch s = .ok w ↔ ¬ spanFaults s.cfg s.pc.toNat 2 ∧
      w = wordOfBytes (memRead s s.pc.toNat) (memRead s (s.pc.toNat + 1)) := by
  by_cases h : spanFaults s.cfg s.pc.toNat 2
  · rw [fetch_of_faults h]
    exact ⟨nofun, fun he => absurd h he.1⟩
  · rw [fetch_of_ok h]
    exact ⟨fun he => ⟨h, (Except.ok.inj he).symm⟩, fun he => congrArg _ he.2.symm⟩

/-- Two bytes decode to an instruction when their word does (R90). -/
theorem decode_pair_eq_ok_iff {strict : Bool} {b1 b2 : Byte} {i : Instr} :
    decode strict [b1, b2] = .ok (i, []) ↔ decodeWord strict (wordOfBytes b1 b2) = .ok i := by
  rw [decode]
  cases decodeWord strict (wordOfBytes b1 b2) <;> simp

/-- Settles O6: the gate is open and the fetch passes, so the step executes what the two bytes decode to. -/
theorem stepRunsTheDecodedInstruction : Obligations.StepRunsTheDecodedInstruction := by
  unfold Obligations.StepRunsTheDecodedInstruction
  intro s i hawp hawr hspan hdecode
  exact step_eq_exec_of_executes
    ⟨State.gated_eq_false_iff.2 ⟨hawp, hawr⟩, _, fetch_of_ok (s := s.countDown) hspan, decode_pair_eq_ok_iff.1 hdecode⟩

/-! ### Faults -/

/-- Settles O9: a fetch fault leaves the countdown, a later one the advance too (R126). -/
theorem faultLeavesOnlyTimersAndAdvancedPc : Obligations.FaultLeavesOnlyTimersAndAdvancedPc := by
  unfold Obligations.FaultLeavesOnlyTimersAndAdvancedPc
  intro s r u hcycle
  obtain ⟨-, ⟨hfetch, rfl⟩ | ⟨rfl, w, hfetch, -⟩⟩ := cycle_fault_cases hcycle
  · have hspan : spanFaults s.cfg s.pc.toNat 2 := (fetch_eq_error_iff.1 hfetch).1
    rw [if_pos hspan]
    rfl
  · have hspan : ¬ spanFaults s.cfg s.pc.toNat 2 := (fetch_eq_ok_iff.1 hfetch).1
    rw [if_neg hspan]
    rfl

/-- Settles O10: above address 4094 the second byte lies outside the space. -/
theorem fetchPastTheEndFaults : Obligations.FetchPastTheEndFaults := by
  unfold Obligations.FetchPastTheEndFaults
  intro s hawp hawr hpolicy hpc
  have hspan : spanFaults s.cfg s.pc.toNat 2 := ⟨hpolicy, by decide, by omega⟩
  have hcycle : cycle s = .fault (.addressFault (s.pc.toNat + 1)) s.countDown :=
    cycle_of_fetch_error (State.gated_eq_false_iff.2 ⟨hawp, hawr⟩) (fetch_of_faults (s := s.countDown) hspan)
  exact ⟨step_eq_fault.2 ⟨_, hcycle⟩, _, hcycle, rfl⟩

/-- The faults of a step: of the fetch, of the decoder, or of the handler (R247). -/
theorem step_eq_fault_iff {s : State} {r : Fault} :
    step s = .fault r ↔ s.gated = false ∧
      (fetch s.countDown = .error r ∨ ∃ w, fetch s.countDown = .ok w ∧
        ((∃ e, decodeWord s.cfg.decodeStrict w = .error e ∧ r = rejectFault e) ∨
          ∃ i, decodeWord s.cfg.decodeStrict w = .ok i ∧ exec i s.countDown.advancePc = .fault r)) := by
  rw [step_eq_fault]
  constructor
  · rintro ⟨u, hcycle⟩
    obtain ⟨hopen, ⟨hfetch, -⟩ | ⟨-, hlater⟩⟩ := cycle_fault_cases hcycle
    · exact ⟨hopen, .inl hfetch⟩
    · exact ⟨hopen, .inr hlater⟩
  · rintro ⟨hopen, hfetch | ⟨w, hfetch, hlater⟩⟩
    · exact ⟨_, cycle_of_fetch_error hopen hfetch⟩
    · exact ⟨_, (cycle_of_fetch_ok hopen hfetch).trans (dispatchWord_eq_fault.2 ⟨rfl, hlater⟩)⟩

/-- A rejected word's fault, by the kind of rejection (R241, R242). -/
theorem exists_rejectFault_iff {d : Except WordReject Instr} {r : Fault} :
    (∃ e, d = .error e ∧ r = rejectFault e) ↔
      (∃ w, d = .error (.invalidOpcode w) ∧ r = .invalidOpcode w) ∨
        ∃ w, d = .error (.internalError w) ∧ r = .internalError w := by
  constructor
  · rintro ⟨w | w, hd, hr⟩
    · exact .inl ⟨w, hd, hr⟩
    · exact .inr ⟨w, hd, hr⟩
  · rintro (⟨w, hd, hr⟩ | ⟨w, hd, hr⟩)
    · exact ⟨_, hd, hr⟩
    · exact ⟨_, hd, hr⟩

/-- Settles O12: the step's faults in order, each written out by the lemma of its part. -/
theorem stepFaultsExactlyInTheListedOrder : Obligations.StepFaultsExactlyInTheListedOrder := by
  unfold Obligations.StepFaultsExactlyInTheListedOrder
  intro s r
  rw [step_eq_fault_iff, State.gated_eq_false_iff, and_assoc]
  refine and_congr_right fun _ => and_congr_right fun _ => or_congr fetch_eq_error_iff ?_
  simp only [fetch_eq_ok_iff, and_assoc, exists_and_left, exists_eq_left, exists_rejectFault_iff, or_assoc,
    (exec_answers _ _).1]
  rfl

/-! ### Timers -/

/-- The state a fault leaves has counted both timers down (R121, R126). -/
theorem timers_of_cycle_fault {s u : State} {r : Fault} (hcycle : cycle s = .fault r u) :
    u.dt = countDownTimer s.dt ∧ u.st = countDownTimer s.st := by
  obtain ⟨-, ⟨-, rfl⟩ | ⟨rfl, -⟩⟩ := cycle_fault_cases hcycle
  · exact ⟨rfl, rfl⟩
  · exact ⟨rfl, rfl⟩

/-- A step counts `DT` down unless it executed `LD DT, Vx` (R121, R224). -/
theorem dt_of_step_next {s t : State} (hstep : step s = .next t) (hother : ∀ x, ¬ Executes s (.ldDtVx x)) :
    t.dt = countDownTimer s.dt := by
  rcases step_next_completes hstep with rfl | ⟨i, hrun, hdone⟩
  · rfl
  · cases hdone with
    | ldDtVx x => exact absurd hrun (hother x)
    | _ => rfl

/-- A step counts `ST` down unless it executed `LD ST, Vx` (R121, R225). -/
theorem st_of_step_next {s t : State} (hstep : step s = .next t) (hother : ∀ x, ¬ Executes s (.ldStVx x)) :
    t.st = countDownTimer s.st := by
  rcases step_next_completes hstep with rfl | ⟨i, hrun, hdone⟩
  · rfl
  · cases hdone with
    | ldStVx x => exact absurd hrun (hother x)
    | _ => rfl

/-- `LD ST, Vx` is one write of `ST` (R225). -/
theorem exec_ldStVx (x : Nibble) (s : State) : exec (.ldStVx x) s = .next { s with st := s.getV x } := rfl

/-- A cycle that ends in a next state is a step to it. -/
theorem step_eq_next_of_cycle {s t : State} (h : cycle s = .next t) : step s = .next t := by
  rw [step_eq, h]
  rfl

/-- Settles O8: the countdown runs in every cycle; only the two loads write a timer after it. -/
theorem timersCountDownOncePerCycle : Obligations.TimersCountDownOncePerCycle := by
  unfold Obligations.TimersCountDownOncePerCycle
  refine ⟨fun s t hcycle => ?_, fun s r u hcycle => ?_⟩
  · have hstep : step s = .next t := step_eq_next_of_cycle hcycle
    refine ⟨fun hother => ?_, fun hother => ?_, fun x hrun => ?_, fun x hrun => ?_, fun x hrun => ?_⟩
    · rw [dt_of_step_next hstep hother, countDownTimer_toNat]
    · rw [st_of_step_next hstep hother, countDownTimer_toNat]
    · cases (exec_ldDtVx x _).symm.trans (exec_of_step_next hrun hstep)
      rfl
    · cases (exec_ldStVx x _).symm.trans (exec_of_step_next hrun hstep)
      rfl
    · cases (exec_ldVxDt x _).symm.trans (exec_of_step_next hrun hstep)
      rw [State.getV_setV_self]
      exact countDownTimer_toNat s.dt
  · obtain ⟨hdt, hst⟩ := timers_of_cycle_fault hcycle
    rw [hdt, hst]
    exact ⟨countDownTimer_toNat s.dt, countDownTimer_toNat s.st⟩

end Sys2Proof.Machine
end

section
/-! Control transfer: RET, JP, JP V0, the skips on registers, and the end of a run (41_flow_control.md R140 to R148;
40_cycle_driver.md R129). -/

namespace Sys2Proof.Machine

/-- The RET of the word's don't-care bits is what the default decode makes of family 0 with key `EE` (R95, R140). -/
theorem decodeWord_false_eq_ret {w : Word} (hfam : famField w = 0x0) (hkey : kkField w = 0xEE) :
    decodeWord false w = .ok (.ret (xField w)) :=
  decodeWord_eq_ok_iff.2 ⟨packXKK_of_fields hfam hkey, rfl⟩

/-- Settles O24: above depth 0 the handler is one pop; at depth 0 it raises, and dispatch keeps the state it was given. -/
theorem retPopsOrFaults : Obligations.RetPopsOrFaults := by
  unfold Obligations.RetPopsOrFaults
  intro dc s
  refine ⟨?_, fun hpos => ?_, fun hempty => ?_⟩
  · rintro w hfam hkey rfl
    exact decodeWord_false_eq_ret hfam hkey
  · exact ⟨_, exec_ret_of_pos dc hpos, rfl, Vector.getElem?_eq_getElem _, rfl⟩
  · have hfault := exec_ret_of_empty dc hempty
    exact ⟨hfault, fun hwf => dispatchWord_of_exec_fault (decodeWord_encode hwf) hfault⟩

/-- `JP nnn` writes the target to `PC` (R141). -/
theorem exec_jp (nnn : Addr12) (s : State) : exec (.jp nnn) s = .next { s with pc := zext16 nnn } := rfl

/-- Settles O25: the handler is one write of `PC`, and the target fits it. -/
theorem jumpLoadsTarget : Obligations.JumpLoadsTarget := by
  unfold Obligations.JumpLoadsTarget
  intro nnn s
  refine ⟨?_, _, exec_jp nnn s, zext16_toNat nnn, rfl⟩
  rintro strict w hfam rfl
  exact decodeWord_fam1 strict hfam

/-- A CALL that completes was entered below depth 16 (R142). -/
theorem sp_lt_of_exec_call {nnn : Addr12} {s t : State} (h : exec (.call nnn) s = .next t) : s.sp.val < 16 := by
  by_contra hfull
  cases (exec_call_of_full nnn (s := s) (by omega)).symm.trans h

/-- Settles O27: the slot CALL writes is the one a RET from the raised `SP` pops. -/
theorem retAfterCallResumesAtReturnAddress : Obligations.RetAfterCallResumesAtReturnAddress := by
  unfold Obligations.RetAfterCallResumesAtReturnAddress
  intro nnn dc s t u hcall hsp hstack
  have hlt : s.sp.val < 16 := sp_lt_of_exec_call hcall
  cases (exec_call_of_lt nnn hlt).symm.trans hcall
  have hdepth : u.sp.val = s.sp.val + 1 := congrArg Fin.val hsp
  refine ⟨_, exec_ret_of_pos dc (s := u) (by omega), ?_, ?_⟩
  · simp [hstack, hdepth]
  · exact Fin.ext (by simp [hdepth])

/-! ### The skips on registers -/

/-- `SE Vx, Vy` is a skip on equality (R145). -/
theorem exec_seVxVy (x y dc : Nibble) (s : State) :
    exec (.seVxVy x y dc) s = .next (skipIf (s.getV x == s.getV y) s) := rfl

/-- `SNE Vx, Vy` is a skip on inequality (R146). -/
theorem exec_sneVxVy (x y dc : Nibble) (s : State) :
    exec (.sneVxVy x y dc) s = .next (skipIf (s.getV x != s.getV y) s) := rfl

/-- Families 5 and 9 under both values of DECODE_STRICT: the low nibble is kept, or must be 0 (R95, R97). -/
theorem acceptDontCare_both {w : Word} {i : Instr} :
    acceptDontCare false w i = .ok i ∧ (i.dontCare ≠ 0 → acceptDontCare true w i = .error (.invalidOpcode w)) :=
  ⟨rfl, fun hdc => (acceptDontCare_eq_error true).2 ⟨rfl, wellFormed_eq_false_iff.2 ⟨rfl, hdc⟩⟩⟩

/-- Settles O29: both instructions are skips, on equality and on inequality. -/
theorem registerSkipsCompare : Obligations.RegisterSkipsCompare := by
  unfold Obligations.RegisterSkipsCompare
  intro x y dc s
  refine ⟨?_, exec_of_skipIf (exec_seVxVy x y dc s) beq_iff_eq, ?_,
    exec_of_skipIf (exec_sneVxVy x y dc s) bne_iff_ne⟩
  · rintro w hfam rfl rfl rfl
    rw [decodeWord_fam5 false hfam, decodeWord_fam5 true hfam]
    exact acceptDontCare_both
  · rintro w hfam rfl rfl rfl
    rw [decodeWord_fam9 false hfam, decodeWord_fam9 true hfam]
    exact acceptDontCare_both

/-! ### JP V0 -/

/-- `JP V0, nnn` writes the sum of `V[0]` and the target to `PC` (R147). -/
theorem exec_jpV0 (nnn : Addr12) (s : State) :
    exec (.jpV0 nnn) s = .next { s with pc := (s.getV 0).setWidth 16 + zext16 nnn } := rfl

/-- A byte and a 12-bit offset add up without a carry out of 16 bits. -/
theorem byteOffset_toNat (b : Byte) (nnn : Addr12) : (b.setWidth 16 + zext16 nnn).toNat = b.toNat + nnn.toNat := by
  have hb : b.toNat < 256 := b.isLt
  have hn : nnn.toNat < 4096 := nnn.isLt
  rw [BitVec.toNat_add, zext16_toNat, BitVec.toNat_setWidth]
  omega

/-- Settles O30: the sum is at most 0xFF + 0xFFF. -/
theorem jumpV0AddsOffset : Obligations.JumpV0AddsOffset := by
  unfold Obligations.JumpV0AddsOffset
  intro nnn s
  have hsum := byteOffset_toNat (s.getV 0) nnn
  have hb : (s.getV 0).toNat < 256 := (s.getV 0).isLt
  have hn : nnn.toNat < 4096 := nnn.isLt
  exact ⟨_, exec_jpV0 nnn s, hsum, hsum.trans_le (by omega), rfl⟩

/-! ### The end of a run -/

/-- Under the fault policy an address is its own effective address (R68). -/
theorem effAddr_of_fault {c : Config} (h : c.oobPolicy = .fault) (addr : Nat) : effAddr c addr = addr := by
  rw [effAddr, h]

/-- At a jump to itself the fetch passes its bounds check: the one `PC` in question is 0xFFF, where the jump's low byte
would lie past the space, which reads 0 in a canonical memory (R129, R67). -/
theorem not_spanFaults_of_finished {s : State} (hinv : StateInv s) (hfin : Finished s) :
    ¬ spanFaults s.cfg s.pc.toNat 2 := by
  rintro ⟨hpolicy, -, hpast⟩
  obtain ⟨nnn, hpc, -, hword⟩ := hfin
  have hn : nnn.toNat < 4096 := nnn.isLt
  have hpcn : s.pc.toNat = nnn.toNat := by rw [hpc, zext16_toNat]
  have hlow : memRead s (s.pc.toNat + 1) = 0 := by
    rw [memRead, effAddr_of_fault hpolicy]
    exact Memory.get_of_wf_of_ge hinv.1 (by omega)
  have hnum := congrArg BitVec.toNat hword
  rw [encode, wordOfBytes_toNat, packNNN_toNat, hlow] at hnum
  change _ * 256 + 0 = 1 * 4096 + nnn.toNat at hnum
  omega

/-- A step of a finished program is the countdown: the jump writes the `PC` it was fetched from (R129). -/
theorem step_of_finished {s : State} (hinv : StateInv s) (hfin : Finished s) : step s = .next s.countDown := by
  have hspan := not_spanFaults_of_finished hinv hfin
  obtain ⟨nnn, hpc, hopen, hword⟩ := hfin
  have hdecode : decodeWord s.cfg.decodeStrict (encode (.jp nnn)) = .ok (.jp nnn) :=
    decodeWord_encode (wellFormed_of_dontCare_eq_zero _ rfl)
  have hrun : Executes s (.jp nnn) :=
    ⟨hopen, _, fetch_eq_ok_iff.2 ⟨hspan, rfl⟩, hword.symm ▸ hdecode⟩
  refine step_of_executes hrun ?_
  rw [exec_jp, ← hpc]
  rfl

/-- Settles O56: the state after the countdown is finished as the one before it. -/
theorem finishedProgramStaysFinished : Obligations.FinishedProgramStaysFinished := by
  unfold Obligations.FinishedProgramStaysFinished
  intro s hinv hfin
  exact ⟨s.countDown, step_of_finished hinv hfin, rfl, hfin⟩

end Sys2Proof.Machine
end

section
/-! Arithmetic, logic and shifts of two registers (42_load_and_alu.md R163 to R170, R172). -/

namespace Sys2Proof.Machine

/-! ### Logic (R163 to R165) -/

theorem exec_orVxVy (x y : Nibble) (s : State) :
    exec (.orVxVy x y) s = .next (resultThenFlag s x (s.getV x ||| s.getV y) false) := rfl
theorem exec_andVxVy (x y : Nibble) (s : State) :
    exec (.andVxVy x y) s = .next (resultThenFlag s x (s.getV x &&& s.getV y) false) := rfl
theorem exec_xorVxVy (x y : Nibble) (s : State) :
    exec (.xorVxVy x y) s = .next (resultThenFlag s x (s.getV x ^^^ s.getV y) false) := rfl

/-- An instruction that writes a result and then clears VF: what VF and every bit of every other register read. -/
theorem exec_of_result_clearing_flag {i : Instr} {s : State} {x : Nibble} {r : Byte} {bit : Nat → Bool}
    (he : exec i s = .next (resultThenFlag s x r false)) (hbit : ∀ k, r.getLsbD k = bit k) :
    ∃ t, exec i s = .next t ∧ t = { s with v := t.v } ∧ t.getV 15 = 0 ∧
      ∀ z, z ≠ 15 → ∀ k, (t.getV z).getLsbD k = if z = x then bit k else (s.getV z).getLsbD k := by
  refine ⟨_, he, resultThenFlag_frame s x r false, ?_, fun z hz k => ?_⟩
  · rw [getV_resultThenFlag, if_pos rfl]
    rfl
  · rw [getV_resultThenFlag, if_neg hz, apply_ite (fun b : Byte => b.getLsbD k), hbit]

/-- Settles O32: each result is bitwise, and VF is written last. -/
theorem logicOperationsClearFlag : Obligations.LogicOperationsClearFlag := by
  unfold Obligations.LogicOperationsClearFlag
  intro x y s
  exact ⟨exec_of_result_clearing_flag (exec_orVxVy x y s) fun _ => BitVec.getLsbD_or,
    exec_of_result_clearing_flag (exec_andVxVy x y s) fun _ => BitVec.getLsbD_and,
    exec_of_result_clearing_flag (exec_xorVxVy x y s) fun _ => BitVec.getLsbD_xor⟩

/-! ### ADD (R166) -/

theorem exec_addVxVy (x y : Nibble) (s : State) :
    exec (.addVxVy x y) s =
      .next (resultThenFlag s x (s.getV x + s.getV y) (carryOf (s.getV x) (s.getV y))) := rfl

/-- The flag byte of a decided proposition as a number (R21). -/
theorem flagByte_decide_toNat (p : Prop) [Decidable p] : (flagByte (decide p)).toNat = if p then 1 else 0 := by
  simp

/-- Settles O33: the flag is the carry of the operands and is written last. -/
theorem addRegistersSetsCarry : Obligations.AddRegistersSetsCarry := by
  unfold Obligations.AddRegistersSetsCarry
  intro x y s
  refine ⟨_, exec_addVxVy x y s, resultThenFlag_frame _ _ _ _, fun z => ?_⟩
  rw [getV_resultThenFlag, apply_ite BitVec.toNat, apply_ite BitVec.toNat, carryOf, flagByte_decide_toNat,
    BitVec.toNat_add]

/-! ### Flag first, then the result: SUB, SUBN, SHR, SHL (R167 to R170) -/

theorem exec_subVxVy (x y : Nibble) (s : State) :
    exec (.subVxVy x y) s =
      .next (flagThenResult s x (noBorrow (s.getV x) (s.getV y)) (s.getV x - s.getV y)) := rfl
theorem exec_subnVxVy (x y : Nibble) (s : State) :
    exec (.subnVxVy x y) s =
      .next (flagThenResult s x (noBorrow (s.getV y) (s.getV x)) (s.getV y - s.getV x)) := rfl
theorem exec_shrVxVy (x y : Nibble) (s : State) :
    exec (.shrVxVy x y) s =
      .next (flagThenResult s x (bitOutLow (shiftSource s x y)) (shiftSource s x y >>> 1)) := rfl
theorem exec_shlVxVy (x y : Nibble) (s : State) :
    exec (.shlVxVy x y) s =
      .next (flagThenResult s x (bitOutHigh (shiftSource s x y)) (shiftSource s x y <<< 1)) := rfl

/-- An instruction that writes a flag and then a result: what every register reads as a number. -/
theorem exec_of_flag_then_result {i : Instr} {s : State} {x : Nibble} {f : Bool} {r : Byte} {flag result : Nat}
    (he : exec i s = .next (flagThenResult s x f r)) (hf : (flagByte f).toNat = flag) (hr : r.toNat = result) :
    ∃ t, exec i s = .next t ∧ t = { s with v := t.v } ∧
      ∀ z, (t.getV z).toNat = if z = x then result else if z = 15 then flag else (s.getV z).toNat := by
  refine ⟨_, he, flagThenResult_frame s x f r, fun z => ?_⟩
  rw [getV_flagThenResult, apply_ite BitVec.toNat, apply_ite BitVec.toNat, hf, hr]

/-- The difference of two bytes is the integer difference modulo 256. -/
theorem toNat_sub_eq_emod (a b : Byte) : ((a - b).toNat : Int) = (a.toNat - b.toNat : Int) % 256 := by
  have ha : a.toNat < 256 := a.isLt
  have hb : b.toNat < 256 := b.isLt
  rw [BitVec.toNat_sub]
  omega

/-- A subtraction that writes no-borrow and then the difference, over the integers (R167, R169). -/
theorem exec_of_subtraction {i : Instr} {s : State} {x : Nibble} {a b : Byte}
    (he : exec i s = .next (flagThenResult s x (noBorrow a b) (a - b))) :
    ∃ t, exec i s = .next t ∧ t = { s with v := t.v } ∧
      ∀ z, ((t.getV z).toNat : Int) =
        if z = x then (a.toNat - b.toNat : Int) % 256
        else if z = 15 then (if a.toNat ≥ b.toNat then 1 else 0) else (s.getV z).toNat := by
  obtain ⟨t, hexec, hframe, hread⟩ := exec_of_flag_then_result he (flagByte_decide_toNat _) rfl
  refine ⟨t, hexec, hframe, fun z => ?_⟩
  rw [hread z, ← toNat_sub_eq_emod]
  push_cast
  rfl

/-- Settles O34: the two subtractions differ in the order of their operands. -/
theorem subtractionsSetNoBorrow : Obligations.SubtractionsSetNoBorrow := by
  unfold Obligations.SubtractionsSetNoBorrow
  intro x y s
  exact ⟨exec_of_subtraction (exec_subVxVy x y s), exec_of_subtraction (exec_subnVxVy x y s)⟩

/-- The shifts' source is `V[y]` in the mode `vy_source` and `V[x]` otherwise (R168, R170). -/
theorem shiftSource_eq_ite (s : State) (x y : Nibble) :
    shiftSource s x y = if s.cfg.shiftMode = .vySource then s.getV y else s.getV x := by
  unfold shiftSource
  cases s.cfg.shiftMode <;> rfl

/-- The bit a right shift drops is the remainder by 2 (R168). -/
theorem flagByte_bitOutLow_toNat (b : Byte) : (flagByte (bitOutLow b)).toNat = b.toNat % 2 := by
  rw [flagByte_toNat, bitOutLow, BitVec.getLsbD, Nat.testBit_zero]
  split <;> simp_all

/-- The bit a left shift drops is the quotient by 128 (R170). -/
theorem flagByte_bitOutHigh_toNat (b : Byte) : (flagByte (bitOutHigh b)).toNat = b.toNat / 128 := by
  have hb : b.toNat < 256 := b.isLt
  rw [flagByte_toNat, bitOutHigh, BitVec.getLsbD, Nat.testBit_eq_decide_div_mod_eq]
  simp only [decide_eq_true_eq]
  split <;> omega

/-- Settles O35: the two shifts halve and double the source operand. -/
theorem shiftsReportTheBitShiftedOut : Obligations.ShiftsReportTheBitShiftedOut := by
  unfold Obligations.ShiftsReportTheBitShiftedOut
  rintro x y s b rfl
  rw [← shiftSource_eq_ite]
  refine ⟨exec_of_flag_then_result (exec_shrVxVy x y s) (flagByte_bitOutLow_toNat _) ?_,
    exec_of_flag_then_result (exec_shlVxVy x y s) (flagByte_bitOutHigh_toNat _) ?_⟩
  · rw [BitVec.toNat_ushiftRight, Nat.shiftRight_one]
  · rw [BitVec.toNat_shiftLeft, Nat.shiftLeft_eq, pow_one]

end Sys2Proof.Machine
end

section
/-! Display clear, index addition, sound timer, key skips, reset and the host's moves (44_display.md R210;
43_index_and_memory.md R191; 45_keypad_and_timers.md R220 to R228; 10_state.md R41; 60_exceptions.md R254). -/

namespace Sys2Proof.Machine

/-- The CLS of the word's don't-care bits is what the default decode makes of family 0 with key `E0` (R95, R210). -/
theorem decodeWord_false_eq_cls {w : Word} (hfam : famField w = 0x0) (hkey : kkField w = 0xE0) :
    decodeWord false w = .ok (.cls (xField w)) :=
  decodeWord_eq_ok_iff.2 ⟨packXKK_of_fields hfam hkey, rfl⟩

/-- Settles O44: the handler writes the cleared framebuffer and REDRAW only. -/
theorem clsClearsEveryCell : Obligations.ClsClearsEveryCell := by
  unfold Obligations.ClsClearsEveryCell
  intro dc s
  refine ⟨?_, _, exec_cls dc s, fun p _ => Frame.cell_clear p, rfl, rfl⟩
  rintro w hfam hkey rfl
  exact decodeWord_false_eq_cls hfam hkey

/-- `ADD I, Vx` writes the 16-bit sum to `I` (R191). -/
theorem exec_addIVx (x : Nibble) (s : State) :
    exec (.addIVx x) s = .next { s with i := s.i + (s.getV x).setWidth 16 } := rfl

/-- Settles O38: the byte is widened without loss, and the sum wraps at 16 bits. -/
theorem addIndexWrapsAtSixteenBits : Obligations.AddIndexWrapsAtSixteenBits := by
  unfold Obligations.AddIndexWrapsAtSixteenBits
  intro x s
  refine exec_of_setI (exec_addIVx x s) ?_
  rw [BitVec.toNat_add, BitVec.toNat_setWidth_of_le (by decide)]

/-- Settles O49: the beep is the loaded value's being positive. -/
theorem soundTimerLoadAndBeep : Obligations.SoundTimerLoadAndBeep := by
  unfold Obligations.SoundTimerLoadAndBeep
  intro x s
  exact ⟨_, exec_ldStVx x s, rfl, rfl, decide_eq_true_iff⟩

/-! ### Key skips -/

/-- `SKP Vx` is a skip on the level of the key `V[x]` names (R220). -/
theorem exec_skpVx (x : Nibble) (s : State) :
    exec (.skpVx x) s = withKeyIndex s (s.getV x) fun k => .next (skipIf (s.keyDown k) s) := rfl

/-- `SKNP Vx` is a skip on the negated level (R221). -/
theorem exec_sknpVx (x : Nibble) (s : State) :
    exec (.sknpVx x) s = withKeyIndex s (s.getV x) fun k => .next (skipIf (!s.keyDown k) s) := rfl

/-- An index up to 15, or any index under the mask policy, names the key of its low nibble (R228). -/
theorem withKeyIndex_of_admitted {s : State} {v : Byte} (h : v.toNat ≤ 15 ∨ s.cfg.keyIndexPolicy = .mask)
    (k : Nibble → Result) : withKeyIndex s v k = k (v.setWidth 4) :=
  h.elim (fun hle => withKeyIndex_of_le hle k) (fun hmask => withKeyIndex_of_mask v hmask k)

/-- The level a masked index reads (R31, R228). -/
theorem keyDown_of_getElem? {s : State} {v : Byte} {b : Bool} (h : s.key[v.toNat % 16]? = some b) :
    s.keyDown (v.setWidth 4) = b := by
  have hk : (v.setWidth 4).toNat = v.toNat % 16 := BitVec.toNat_setWidth 4 v
  rw [State.keyDown, ← Option.some_inj, ← h, ← hk]
  exact (Vector.getElem?_eq_getElem _).symm

/-- Settles O47: with an admitted index both are skips, on the level and on its negation; else both raise. -/
theorem keySkipsTestTheLevel : Obligations.KeySkipsTestTheLevel := by
  unfold Obligations.KeySkipsTestTheLevel
  intro x s
  rw [exec_skpVx, exec_sknpVx]
  refine ⟨fun hok => ?_, fun hv hfault => ⟨withKeyIndex_of_fault hv hfault _, withKeyIndex_of_fault hv hfault _⟩⟩
  refine ⟨_, _, withKeyIndex_of_admitted hok _, withKeyIndex_of_admitted hok _, skipIf_frame _ s, skipIf_frame _ s,
    fun hdown => ?_, fun hup => ?_⟩
  · rw [keyDown_of_getElem? hdown]
    exact ⟨rfl, rfl⟩
  · rw [keyDown_of_getElem? hup]
    exact ⟨rfl, rfl⟩

/-! ### Reset -/

/-- The reset byte inside the font (R36, R41). -/
theorem resetByte_font {c : Config} {k : Nat} {b : Byte} (h : c.fontGlyphs[k]? = some b) :
    resetByte c (c.fontBase.val + k) = b := by
  rw [resetByte, if_pos (Nat.le_add_right _ k), Nat.add_sub_cancel_left, h]
  rfl

/-- The reset byte outside the font (R41). -/
theorem resetByte_of_outside {c : Config} {a : Nat} (h : a < c.fontBase.val ∨ c.fontBase.val + 80 ≤ a) :
    resetByte c a = 0 := by
  unfold resetByte
  split
  · next hle =>
    rw [Vector.getElem?_eq_none (by omega)]
    rfl
  · rfl

/-- Settles O52: after reset no cell is listed, so every address reads its reset byte. -/
theorem resetStatedValues : Obligations.ResetStatedValues := by
  unfold Obligations.ResetStatedValues
  refine fun c => ⟨fun x => ?_, rfl, fun k b => resetByte_font, fun a _ => resetByte_of_outside⟩
  exact Vector.getElem_replicate x.isLt

/-- Settles O53: each of these elements is written out as 0 in the reset state. -/
theorem resetDecidedValues : Obligations.ResetDecidedValues := by
  unfold Obligations.ResetDecidedValues
  refine fun c => ⟨rfl, rfl, fun k w hw => ?_, rfl, rfl, Frame.cell_clear, rfl, fun k b hb => ?_, rfl, rfl⟩
  · obtain ⟨hk, hw⟩ := Vector.getElem?_eq_some_iff.1 hw
    exact hw.symm.trans (Vector.getElem_replicate hk)
  · obtain ⟨hk, hb⟩ := Vector.getElem?_eq_some_iff.1 hb
    exact hb.symm.trans (Vector.getElem_replicate hk)

/-! ### Host moves -/

/-- Settles O55: each move is one field update; that of the keypad sets one level. -/
theorem hostMovesChangeTheirElementOnly : Obligations.HostMovesChangeTheirElementOnly := by
  unfold Obligations.HostMovesChangeTheirElementOnly
  intro s k b
  have hset : (s.key.set k.toNat b k.isLt)[k.toNat]? = some b := by simp
  have hkept : ∀ l, l ≠ k.toNat → (s.key.set k.toNat b k.isLt)[l]? = s.key[l]? :=
    fun l hl => Vector.getElem?_set_ne k.isLt hl.symm
  exact ⟨⟨hset, hkept, rfl⟩, rfl, rfl, rfl⟩

/-! ### Sample words -/

/-- Settles O5, by running the decoder on the ten words. -/
theorem sampleWordsDecodeAsTheSpecSays : Obligations.SampleWordsDecodeAsTheSpecSays := by
  unfold Obligations.SampleWordsDecodeAsTheSpecSays
  decide

end Sys2Proof.Machine
end

section
/-! Memory transfers and the ROM load (20_memory.md R65 to R69; 43_index_and_memory.md R193 to R195;
70_reset_and_hazards.md R281, R282). -/

namespace Sys2Proof.Machine

/-- An address of the space is its own effective address under both policies (R68, R76). -/
theorem effAddr_of_lt {c : Config} {a : Nat} (h : a < 4096) : effAddr c a = a := by
  unfold effAddr
  split
  · rfl
  · exact Nat.mod_eq_of_lt h

/-- A stored byte reads back at its effective address (R66, R69). -/
theorem byteAt_storeBytes_of_getElem? {s : State} {addr k : Nat} {bs : List Byte} {b : Byte}
    (hspan : ¬ spanFaults s.cfg addr bs.length) (hlen : bs.length ≤ 4096) (h : bs[k]? = some b) :
    (s.storeBytes addr bs).byteAt (effAddr s.cfg (addr + k)) = b := by
  obtain ⟨hk, rfl⟩ := List.getElem?_eq_some_iff.1 h
  exact byteAt_storeBytes_of_inside s addr bs hlen hk hspan

/-- Settles O43: inside the span the stored byte, outside the old one, and each byte store keeps the canonical form. -/
theorem storedBytesReadBack : Obligations.StoredBytesReadBack := by
  unfold Obligations.StoredBytesReadBack
  intro s addr bs hlen hspan
  exact ⟨fun k b => byteAt_storeBytes_of_getElem? hspan hlen,
    fun a ha => byteAt_storeBytes_of_outside s addr bs fun k hk => (ha k hk).symm,
    fun hwf => Memory.wf_storeAll hwf addr bs⟩

/-! ### LD B (R193) -/

/-- `LD B, Vx` stores the three digits behind the check of its span (R193). -/
theorem exec_ldBVx (x : Nibble) (s : State) :
    exec (.ldBVx x) s =
      checkSpan s s.i.toNat 3 (.next (s.storeBytes s.i.toNat (decimalDigits (s.getV x)))) := rfl

/-- A number below 256 is kept by a byte. -/
theorem byteOfNat_toNat {n : Nat} (h : n < 256) : (BitVec.ofNat 8 n).toNat = n :=
  (BitVec.toNat_ofNat n 8).trans (Nat.mod_eq_of_lt h)

/-- Settles O39: the stored bytes are the three digits, each below 256. -/
theorem storeDecimalDigits : Obligations.StoreDecimalDigits := by
  unfold Obligations.StoreDecimalDigits
  intro x s
  rw [exec_ldBVx]
  refine ⟨fun hspan => ?_, fun hspan => checkSpan_of_faults hspan _⟩
  have hv : (s.getV x).toNat < 256 := (s.getV x).isLt
  have hread {k : Nat} {b : Byte} (hk : (decimalDigits (s.getV x))[k]? = some b) :
      (s.storeBytes s.i.toNat (decimalDigits (s.getV x))).byteAt (effAddr s.cfg (s.i.toNat + k)) = b :=
    byteAt_storeBytes_of_getElem? hspan (show 3 ≤ 4096 by decide) hk
  refine ⟨_, checkSpan_of_ok hspan _, rfl, ?_, ?_, ?_, fun a ha => ?_⟩
  · rw [hread rfl, byteOfNat_toNat (by omega)]
  · rw [hread rfl, byteOfNat_toNat (by omega)]
  · rw [hread rfl, byteOfNat_toNat (by omega)]
  · exact byteAt_storeBytes_of_outside _ _ _ fun k hk => (ha k hk).symm

/-! ### LD [I] (R194) -/

/-- `I` after the post-increment, as a number (R77, R194, R195). -/
theorem State.bumpI_i_toNat (s : State) (x : Nibble) : (s.bumpI x).i.toNat = (s.i.toNat + x.toNat + 1) % 65536 := by
  change (s.i + BitVec.ofNat 16 (x.toNat + 1)).toNat = _
  rw [BitVec.toNat_add, BitVec.toNat_ofNat, Nat.add_mod_mod, Nat.add_assoc]

/-- The bytes `LD [I], Vx` stores: registers `0..x` (R194). -/
def State.dumpedRegs (s : State) (x : Nibble) : List Byte := s.v.toList.take (x.toNat + 1)

theorem State.length_dumpedRegs (s : State) (x : Nibble) : (s.dumpedRegs x).length = x.toNat + 1 := by
  have hx : x.toNat < 16 := x.isLt
  rw [State.dumpedRegs, List.length_take, Vector.length_toList]
  omega

theorem State.getElem?_dumpedRegs (s : State) {x z : Nibble} (h : z.toNat ≤ x.toNat) :
    (s.dumpedRegs x)[z.toNat]? = some (s.getV z) := by
  have hz : z.toNat < 16 := z.isLt
  rw [State.dumpedRegs, List.getElem?_take_of_lt (by omega)]
  simp [State.getV]

/-- `LD [I], Vx` stores registers `0..x` behind the check of their span and advances `I` (R194). -/
theorem exec_ldMemVx (x : Nibble) (s : State) :
    exec (.ldMemVx x) s =
      checkSpan s s.i.toNat (x.toNat + 1) (.next ((s.storeBytes s.i.toNat (s.dumpedRegs x)).bumpI x)) := rfl

/-- After `LD [I], Vx` the byte at `I + z` is `V[z]`, for every `z` up to `x` (R194). -/
theorem byteAt_dumped {x z : Nibble} {s : State} (hspan : ¬ spanFaults s.cfg s.i.toNat (x.toNat + 1))
    (hz : z.toNat ≤ x.toNat) :
    ((s.storeBytes s.i.toNat (s.dumpedRegs x)).bumpI x).byteAt (effAddr s.cfg (s.i.toNat + z.toNat)) = s.getV z := by
  have hx : x.toNat < 16 := x.isLt
  have hlen := s.length_dumpedRegs x
  exact byteAt_storeBytes_of_getElem? (hlen.symm ▸ hspan) (by omega) (s.getElem?_dumpedRegs hz)

/-- Settles O40: the stored bytes are the dumped registers, and the span is theirs. -/
theorem storeRegisters : Obligations.StoreRegisters := by
  unfold Obligations.StoreRegisters
  intro x s
  rw [exec_ldMemVx]
  refine ⟨fun hspan => ?_, fun hspan => checkSpan_of_faults hspan _⟩
  refine ⟨_, checkSpan_of_ok hspan _, rfl, State.bumpI_i_toNat _ x, fun z => byteAt_dumped hspan, fun a ha => ?_⟩
  refine byteAt_storeBytes_of_outside s _ _ fun k hk => (ha k ?_).symm
  rw [s.length_dumpedRegs x] at hk
  exact Nat.le_of_lt_succ hk

/-! ### LD Vx, [I] (R195) -/

/-- `LD Vx, [I]` loads registers `0..x` behind the check of their span and advances `I` (R195). -/
theorem exec_ldVxMem (x : Nibble) (s : State) :
    exec (.ldVxMem x) s = checkSpan s s.i.toNat (x.toNat + 1) (.next ((s.loadRegs x).bumpI x)) := rfl

/-- Settles O41: the load writes registers and `I` only, and reads memory at the effective addresses. -/
theorem loadRegisters : Obligations.LoadRegisters := by
  unfold Obligations.LoadRegisters
  intro x s
  rw [exec_ldVxMem]
  exact ⟨fun hspan => ⟨_, checkSpan_of_ok hspan _, rfl, State.bumpI_i_toNat _ x, s.getV_loadRegs x⟩,
    fun hspan => checkSpan_of_faults hspan _⟩

/-- Settles O42: the reload checks the span the dump passed, and reads the bytes it stored. -/
theorem storeThenLoadRegistersRoundTrips : Obligations.StoreThenLoadRegistersRoundTrips := by
  unfold Obligations.StoreThenLoadRegistersRoundTrips
  intro x s t junk hdump
  obtain ⟨hspan, hdumped⟩ := checkSpan_eq_next.1 ((exec_ldMemVx x s).symm.trans hdump)
  cases hdumped
  refine ⟨_, checkSpan_of_ok hspan _, rfl, fun z hz => ?_⟩
  refine (State.getV_loadRegs _ x z).trans ((if_pos hz).trans ?_)
  exact byteAt_dumped hspan hz

/-! ### The ROM load (R281, R282) -/

/-- An image that fits lies inside the space (R281). -/
theorem not_spanFaults_of_image (c : Config) {n : Nat} (h : n ≤ 3584) : ¬ spanFaults c 0x200 n := by
  rintro ⟨-, -, hpast⟩
  omega

/-- Settles O54: the image is one store at 0x200, where every address is its own effective address. -/
theorem romLoadPlacesTheImage : Obligations.RomLoadPlacesTheImage := by
  unfold Obligations.RomLoadPlacesTheImage
  refine fun image s => ⟨fun hfits => ?_, loadRom_of_gt s⟩
  refine ⟨_, loadRom_of_le s hfits, rfl, fun k b hk => ?_, fun a ha => ?_, rfl⟩
  · obtain ⟨hlt, -⟩ := List.getElem?_eq_some_iff.1 hk
    have hread := byteAt_storeBytes_of_getElem? (not_spanFaults_of_image s.cfg hfits) (by omega) hk
    rwa [effAddr_of_lt (by omega)] at hread
  · refine byteAt_storeBytes_of_outside s 0x200 image fun k hk => ?_
    rw [effAddr_of_lt (by omega)]
    omega

end Sys2Proof.Machine
end

section
/-! DRW (44_display.md R211, R212). -/

namespace Sys2Proof.Machine

/-- What `DRW Vx, Vy, n` draws: the framebuffer and the collision (R211). -/
def State.drawn (s : State) (x y n : Nibble) : Frame × Bool :=
  drawSprite s.fb (s.getV x) (s.getV y) (s.loadBytes s.i.toNat n.toNat)

/-- The wrapped mask of the sprite `DRW Vx, Vy, n` draws (R212). -/
def State.spriteMask (s : State) (x y n : Nibble) : Nat → Bool :=
  wrappedMask ((s.getV x).toNat % 64) ((s.getV y).toNat % 32) (s.loadBytes s.i.toNat n.toNat)

/-- Every cell is XORed with the mask, and a collision is a lit cell under it (R211, R212). -/
theorem State.drawn_spec (s : State) (x y n : Nibble) :
    (∀ p < 2048, Frame.cell (s.drawn x y n).1 p = (s.cell p ^^ s.spriteMask x y n p)) ∧
      ((s.drawn x y n).2 = true ↔ ∃ p < 2048, s.spriteMask x y n p = true ∧ s.cell p = true) := by
  have hn : n.toNat < 16 := n.isLt
  refine drawSprite_spec s.fb (s.getV x) (s.getV y) (s.loadBytes s.i.toNat n.toNat) ?_
  rw [length_loadBytes]
  omega

/-- `DRW` writes the drawn framebuffer, REDRAW and VF behind the check of its rows' span (R211). -/
theorem exec_drw (x y n : Nibble) (s : State) :
    exec (.drw x y n) s = checkSpan s s.i.toNat n.toNat
      (.next (State.setFlag { s with fb := (s.drawn x y n).1, redraw := true } (s.drawn x y n).2)) := rfl

/-- The flag register after a flag write (R21). -/
theorem State.getV_setFlag_vf (s : State) (b : Bool) : (s.setFlag b).getV 15 = flagByte b := s.getV_setV_self vf _

theorem flagByte_eq_one_iff (b : Bool) : flagByte b = 1 ↔ b = true := by cases b <;> decide

/-- A flag byte is 1 or 0 (R21). -/
theorem flagByte_eq_one_or_zero (b : Bool) : flagByte b = 1 ∨ flagByte b = 0 := by cases b <;> decide

/-- Settles O45: the drawn framebuffer and collision are read cell by cell; VF is the one register written. -/
theorem drawXorsWrappedSprite : Obligations.DrawXorsWrappedSprite := by
  unfold Obligations.DrawXorsWrappedSprite
  rintro x y n s mask rfl
  rw [exec_drw]
  refine ⟨fun hspan => ?_, fun hspan => checkSpan_of_faults hspan _⟩
  obtain ⟨hcells, hcollision⟩ := s.drawn_spec x y n
  refine ⟨_, checkSpan_of_ok hspan _, hcells, rfl, ?_, ?_, fun z hz => State.getV_setV_ne _ _ hz, rfl⟩
  · rw [State.getV_setFlag_vf]
    exact flagByte_eq_one_or_zero _
  · rw [State.getV_setFlag_vf, flagByte_eq_one_iff]
    exact hcollision

/-- The cells of a state that holds the drawn framebuffer of `s` (R212). -/
theorem cell_of_drawn {s u : State} {x y n : Nibble} (hfb : u.fb = (s.drawn x y n).1) {p : Nat} (hp : p < 2048) :
    u.cell p = (s.cell p ^^ s.spriteMask x y n p) := by
  rw [State.cell, hfb]
  exact (s.drawn_spec x y n).1 p hp

/-- Drawing again with the same mask restores the framebuffer: XOR is its own inverse (R212). -/
theorem drawn_twice_fb {s u : State} {x y n : Nibble} (hfb : u.fb = (s.drawn x y n).1)
    (hmask : u.spriteMask x y n = s.spriteMask x y n) : (u.drawn x y n).1 = s.fb := by
  refine Frame.ext_cell fun p hp => ?_
  rw [(u.drawn_spec x y n).1 p hp, cell_of_drawn hfb hp, hmask, Bool.xor_assoc, Bool.xor_self, Bool.xor_false]
  rfl

/-- The second draw collides where the mask covers a cell that was 0 before the first (R212). -/
theorem drawn_twice_collision {s u : State} {x y n : Nibble} (hfb : u.fb = (s.drawn x y n).1)
    (hmask : u.spriteMask x y n = s.spriteMask x y n) :
    (u.drawn x y n).2 = true ↔ ∃ p < 2048, s.spriteMask x y n p = true ∧ s.cell p = false := by
  rw [(u.drawn_spec x y n).2, hmask]
  refine exists_congr fun p => and_congr_right fun hp => and_congr_right fun hset => ?_
  rw [cell_of_drawn hfb hp, hset, Bool.xor_true, Bool.not_eq_true']

/-- Settles O46: between the draws only registers change, so the second draw has the first one's span and mask. -/
theorem drawingTwiceRestoresTheFramebuffer : Obligations.DrawingTwiceRestoresTheFramebuffer := by
  unfold Obligations.DrawingTwiceRestoresTheFramebuffer
  intro x y n s t u hdraw hu hx hy
  obtain ⟨hspan, hdrawn⟩ := checkSpan_eq_next.1 ((exec_drw x y n s).symm.trans hdraw)
  cases hdrawn
  have hcfg : u.cfg = s.cfg := by rw [hu]; rfl
  have hi : u.i = s.i := by rw [hu]; rfl
  have hfb : u.fb = (s.drawn x y n).1 := by rw [hu]; rfl
  have hmem : u.mem = s.mem := by rw [hu]; rfl
  have hrows : u.loadBytes u.i.toNat n.toNat = s.loadBytes s.i.toNat n.toNat := by
    simp only [State.loadBytes, memRead, State.byteAt, hcfg, hi, hmem]
  have hmask : u.spriteMask x y n = s.spriteMask x y n := by
    rw [State.spriteMask, State.spriteMask, hx, hy, hrows]
  rw [exec_drw]
  refine ⟨_, checkSpan_of_ok (by rwa [hcfg, hi]) _, drawn_twice_fb hfb hmask, ?_⟩
  rw [State.getV_setFlag_vf, flagByte_eq_one_iff]
  exact drawn_twice_collision hfb hmask

end Sys2Proof.Machine
end
